-- ==== Sys2Proof/Word.lean ====
section
/-! DEFINITION. The widths the spec gives: FPEXC and the general registers are 32 bits (R30, R60), a T32 halfword is 16
bits (R107), a byte of program text is 8 bits (R82), a register number is the 4-bit field `Rt` (R104). -/

namespace Sys2Proof

/-- A 32-bit register value, instruction word or address (R30, R60, R61). -/
abbrev Word := BitVec 32

/-- One halfword of a T32 instruction (R107). -/
abbrev Half := BitVec 16

/-- One byte of program text (R82). -/
abbrev Byte := BitVec 8

/-- The 4-bit number `t` of the general register `<Rt>` (R104, R109). -/
abbrev RegNum := BitVec 4

end Sys2Proof
end

