-- ==== Sys2Proof/Syntax.lean ====
section
/-! DEFINITION. The instructions: the four rows of spec/opcode_table.json, one constructor each (R101, R105 to R108). -/

namespace Sys2Proof

/-- The two instruction sets whose decoders the spec gives (R110). -/
inductive InstrSet where
  | a32
  | t32
  deriving DecidableEq, Repr, Inhabited

/-- The condition names of R102. The pattern `1111` names no condition. -/
inductive Cond where
  | eq | ne | cs | cc | mi | pl | vs | vc | hi | ls | ge | lt | gt | le | al
  deriving DecidableEq, Repr

/-- The instructions in scope. The A1 forms carry their 4-bit `cond` field as decoded; the T1 forms have none (R102). -/
inductive Instr where
  /-- `VMRS{<c>}{<q>} <Rt>, FPEXC`, A32 encoding A1 (R105, R123). -/
  | vmrsA1 (cond : BitVec 4) (t : RegNum)
  /-- `VMSR{<c>}{<q>} FPEXC, <Rt>`, A32 encoding A1 (R106, R124). -/
  | vmsrA1 (cond : BitVec 4) (t : RegNum)
  /-- `VMRS{<c>}{<q>} <Rt>, FPEXC`, T32 encoding T1 (R107, R123). -/
  | vmrsT1 (t : RegNum)
  /-- `VMSR{<c>}{<q>} FPEXC, <Rt>`, T32 encoding T1 (R108, R124). -/
  | vmsrT1 (t : RegNum)
  deriving DecidableEq, Repr

/-- The instruction set a form belongs to (R105 to R108). -/
def Instr.set : Instr → InstrSet
  | .vmrsA1 _ _ => .a32
  | .vmsrA1 _ _ => .a32
  | .vmrsT1 _ => .t32
  | .vmsrT1 _ => .t32

/-- The register operand of a form. -/
def Instr.rt : Instr → RegNum
  | .vmrsA1 _ t => t
  | .vmsrA1 _ t => t
  | .vmrsT1 t => t
  | .vmsrT1 t => t

end Sys2Proof
end

