-- ==== Sys2Proof/WellFormed.lean ====
section
/-! DEFINITION. Which terms of `Instr` stand for an instruction of the opcode table. -/

namespace Sys2Proof

/-- An A32 form is an instruction only when its `cond` field is not `1111` (R105, R106, R112); every other operand value
is an instruction word, `t` = 15 included (R127 refuses it when it is executed, not when it is decoded). -/
def Instr.wf : Instr → Bool
  | .vmrsA1 cond _ => cond != 0b1111#4
  | .vmsrA1 cond _ => cond != 0b1111#4
  | .vmrsT1 _ => true
  | .vmsrT1 _ => true

end Sys2Proof
end

