-- ==== Sys2Proof/Decode.lean ====
section
/-! DEFINITION. From bytes to instructions and back (R100, R105 to R114), with the byte order of R82. The decoder is
written from the match and mask of each row; the encoder from the bit diagrams of R105 to R108. -/

namespace Sys2Proof

/-! ### Byte order (R82: little-endian; the first halfword of a T32 instruction at the lower address) -/

/-- Two bytes, lowest address first, as a little-endian halfword. -/
def halfOfBytes (b0 b1 : Byte) : Half := b0.setWidth 16 ||| (b1.setWidth 16 <<< 8)

/-- The word whose bytes are these, least significant first. -/
def wordOfBytes (b0 b1 b2 b3 : Byte) : Word :=
  b0.setWidth 32 ||| (b1.setWidth 32 <<< 8) ||| (b2.setWidth 32 <<< 16) ||| (b3.setWidth 32 <<< 24)

/-- Byte `k` of a word, counted from the least significant. -/
def byteOfWord (w : Word) (k : Nat) : Byte := w.extractLsb' (8 * k) 8

/-- Four bytes, lowest address first, as the 32-bit value the decoder takes (R82, R107, D12): one little-endian word in
A32; `hw1 : hw2`, two little-endian halfwords, in T32. -/
def assemble : InstrSet → Byte → Byte → Byte → Byte → Word
  | .a32, b0, b1, b2, b3 => wordOfBytes b0 b1 b2 b3
  | .t32, b0, b1, b2, b3 => wordOfBytes b2 b3 b0 b1

/-- The four bytes of an instruction word as they lie in the program text, lowest address first. -/
def layout : InstrSet → Word → List Byte
  | .a32, w => [byteOfWord w 0, byteOfWord w 1, byteOfWord w 2, byteOfWord w 3]
  | .t32, w => [byteOfWord w 2, byteOfWord w 3, byteOfWord w 0, byteOfWord w 1]

/-! ### The decoder -/

/-- Why a run of bytes is no instruction of this spec. -/
inductive DecodeError where
  /-- The bytes end before the instruction does. -/
  | truncated
  /-- A complete instruction that matches no row of the opcode table (R112 to R114). -/
  | notInScope
  deriving DecidableEq, Repr

/-- The `cond` field of an A32 word, bits 31:28 (R105, R106). -/
def condField (w : Word) : BitVec 4 := w.extractLsb' 28 4

/-- The `Rt` field, bits 15:12 (R105 to R108, R109). -/
def rtField (w : Word) : RegNum := w.extractLsb' 12 4

/-- The four rows of the opcode table by match and mask, with `cond` = `1111` excluded (R105 to R108, R112). -/
def decodeWord (set : InstrSet) (w : Word) : Option Instr :=
  match set with
  | .a32 =>
    if condField w = 0b1111#4 then none
    else if w &&& 0x0FFF0FFF#32 = 0x0EF80A10#32 then some (.vmrsA1 (condField w) (rtField w))
    else if w &&& 0x0FFF0FFF#32 = 0x0EE80A10#32 then some (.vmsrA1 (condField w) (rtField w))
    else none
  | .t32 =>
    if w &&& 0xFFFF0FFF#32 = 0xEEF80A10#32 then some (.vmrsT1 (rtField w))
    else if w &&& 0xFFFF0FFF#32 = 0xEEE80A10#32 then some (.vmsrT1 (rtField w))
    else none

/-- A T32 instruction is 32 bits long when bits 15:11 of its first halfword are `11101`, `11110` or `11111`, and 16 bits
otherwise (R110). -/
def isWideT32 (hw1 : Half) : Bool :=
  let top := hw1.extractLsb' 11 5
  top == 0b11101#5 || top == 0b11110#5 || top == 0b11111#5

/-- The decoder over four bytes and what follows them. -/
def decodeFour (set : InstrSet) (b0 b1 b2 b3 : Byte) (rest : List Byte) : Except DecodeError (Instr × List Byte) :=
  match decodeWord set (assemble set b0 b1 b2 b3) with
  | some i => .ok (i, rest)
  | none => .error .notInScope

/-- The decoder: total on any bytes, answering the instruction and the bytes after it. -/
def decode (set : InstrSet) (bytes : List Byte) : Except DecodeError (Instr × List Byte) :=
  match set, bytes with
  | .a32, b0 :: b1 :: b2 :: b3 :: rest => decodeFour .a32 b0 b1 b2 b3 rest
  | .t32, b0 :: b1 :: tail =>
    if isWideT32 (halfOfBytes b0 b1) then
      match tail with
      | b2 :: b3 :: rest => decodeFour .t32 b0 b1 b2 b3 rest
      | _ => .error .truncated
    else .error .notInScope
  | _, _ => .error .truncated

/-! ### The encoder -/

/-- The instruction word of a form, from the bit diagrams of R105 to R108: bit 20 tells VMRS (1) from VMSR (0), `reg` is
`1000`, and the T1 patterns have `1110` where A1 has `cond`. -/
def encodeWord : Instr → Word
  | .vmrsA1 cond t => cond ++ 0b1110#4 ++ 0b1111#4 ++ 0b1000#4 ++ t ++ 0b1010#4 ++ 0b00010000#8
  | .vmsrA1 cond t => cond ++ 0b1110#4 ++ 0b1110#4 ++ 0b1000#4 ++ t ++ 0b1010#4 ++ 0b00010000#8
  | .vmrsT1 t => 0b11101110#8 ++ 0b1111#4 ++ 0b1000#4 ++ t ++ 0b1010#4 ++ 0b00010000#8
  | .vmsrT1 t => 0b11101110#8 ++ 0b1110#4 ++ 0b1000#4 ++ t ++ 0b1010#4 ++ 0b00010000#8

/-- The bytes of an instruction in the program text, lowest address first. -/
def encode (i : Instr) : List Byte := layout i.set (encodeWord i)

/-! ### A word of the opcode table -/

/-- The instruction set a word of the opcode table is read in. The table's A1 rows with `cond` = `1110` and its T1 rows
are the same 32 bits (R107: "the A1 pattern with cond replaced by 1110"), and the table gives no selector: a word whose
top four bits are `1110` is read as T32, any other as A32 (assumption 11). -/
def tableSet (w : Word) : InstrSet := if condField w = 0b1110#4 then .t32 else .a32

/-- The 32-bit word of an opcode-table number: bit n of the number is bit n of the word, and bits at or above `nbits` are
zero. The table numbers a T1 row as `hw1 : hw2`, `hw1` in bits 31:16. -/
def tableWord (nbits w : Nat) : Word := BitVec.ofNat 32 (w % 2 ^ nbits)

/-- What the decoder reads from an instruction whose bits, numbered as the opcode table numbers them, are `w`. -/
def decodeTableWord (nbits w : Nat) : Option Instr :=
  let word := tableWord nbits w
  match decode (tableSet word) (layout (tableSet word) word) with
  | .ok (i, _) => some i
  | .error _ => none

end Sys2Proof
end

