-- ==== Sys2Proof/Config.lean ====
section
/-! DEFINITION. What an implementation fixes (the parameters of R7 to R14), what the enclosing machine supplies (the
inputs of R62, R66 to R68, R102, R110), and the free values of the model. -/

namespace Sys2Proof

/-- One datum per floating-point exception: Input Denormal, Inexact, Underflow, Overflow, Divide by Zero, Invalid
Operation (R28). -/
structure PerException (α : Type) where
  inputDenormal : α
  inexact : α
  underflow : α
  overflow : α
  divideByZero : α
  invalidOperation : α
  deriving DecidableEq, Repr, Inhabited

/-- The six floating-point exceptions (R28). -/
inductive FpException where
  | inputDenormal | inexact | underflow | overflow | divideByZero | invalidOperation
  deriving DecidableEq, Repr

/-- The datum of one exception. -/
def PerException.get {α : Type} (x : PerException α) : FpException → α
  | .inputDenormal => x.inputDenormal
  | .inexact => x.inexact
  | .underflow => x.underflow
  | .overflow => x.overflow
  | .divideByZero => x.divideByZero
  | .invalidOperation => x.invalidOperation

/-- `P_EL0_TGE` (R12). -/
inductive El0Tge where
  | asIfOne
  | byEn
  deriving DecidableEq, Repr

/-- `P_RES` (R13): RES0 and RES1 bits are fixed, or hold what was written. -/
inductive ResKind where
  | hardwired
  | stored
  deriving DecidableEq, Repr

/-- `P_SYNC` (R14, R178). -/
inductive SyncKind where
  | immediate
  | needsSync
  deriving DecidableEq, Repr

/-- The implementation parameters (R7 to R14). They are fixed for a machine: no step changes them. -/
structure Params where
  /-- `P_HAVE_FP` (R7). -/
  haveFp : Bool
  /-- `P_TRAP_FPEXC` (R8). -/
  trapFpexc : Bool
  /-- `P_STRIDELEN_RAZ` (R9). -/
  strideLenRaz : Bool
  /-- `P_RESET_AARCH32` (R11). -/
  resetAArch32 : Bool
  /-- `P_EL0_TGE` (R12). -/
  el0Tge : El0Tge
  /-- `P_RES` (R13). -/
  res : ResKind
  /-- `P_T32_SP_OK` (R14, R127). -/
  t32SpOk : Bool
  /-- `P_SYNC` (R14, R178). -/
  sync : SyncKind
  deriving DecidableEq, Repr

/-- The four configurations of R10. -/
inductive CfgName where
  | cfgA | cfgB | cfgC | cfgD
  deriving DecidableEq, Repr

/-- The Exception levels (R26). -/
inductive EL where
  | el0 | el1 | el2 | el3
  deriving DecidableEq, Repr, Inhabited

/-- The APSR flags a condition tests (R62, R102). -/
structure CondFlags where
  n : Bool
  z : Bool
  c : Bool
  v : Bool
  deriving DecidableEq, Repr, Inhabited

/-- The environment: every input the enclosing machine supplies (R29, R62, R66 to R68, R102, R110). No instruction
writes any of it. -/
structure Env where
  /-- The instruction set being decoded, PSTATE.T (R110). -/
  iset : InstrSet
  /-- N, Z, C, V (R102). -/
  flags : CondFlags
  /-- `PSTATE.EL` (R66). -/
  el : EL
  /-- `ELUsingAArch32(EL1)` (R66). -/
  el1AArch32 : Bool
  /-- `ELUsingAArch32(EL2)` (R66). -/
  el2AArch32 : Bool
  /-- `ELUsingAArch32(EL3)` (R66). -/
  el3AArch32 : Bool
  /-- `EL2Enabled()` (R66). -/
  el2Enabled : Bool
  /-- `SCR.NS` (R66). -/
  scrNs : Bool
  /-- `NSACR.cp10` (R66). -/
  nsacrCp10 : Bool
  /-- `CPACR.cp10` (R66). -/
  cpacrCp10 : BitVec 2
  /-- `HCR_EL2.E2H` (R66). -/
  hcrEl2E2h : Bool
  /-- `CPTR_EL2.TFP` (R66). -/
  cptrEl2Tfp : Bool
  /-- `CPTR_EL2.FPEN` (R66). -/
  cptrEl2Fpen : BitVec 2
  /-- `HCPTR.TCP10` (R66). -/
  hcptrTcp10 : Bool
  /-- `HCR_EL2.TID3` (R66). -/
  hcrEl2Tid3 : Bool
  /-- `HCR.TID3` (R66). -/
  hcrTid3 : Bool
  /-- `HCR_EL2.RW` (R67). -/
  hcrEl2Rw : Bool
  /-- `HCR_EL2.TGE` (R67). -/
  hcrEl2Tge : Bool
  /-- `CPACR_EL1.FPEN` (R68, R153): named, given no rule, read by nothing. -/
  cpacrEl1Fpen : BitVec 2
  /-- `CPACR.ASEDIS` (R68, R153): named, given no rule, read by nothing. -/
  cpacrAsedis : Bool
  /-- `HCPTR.TASE` (R68, R153): named, given no rule, read by nothing. -/
  hcptrTase : Bool
  /-- `NSACR.NSTRCDIS`, as printed (R68, R153, D24): named, given no rule, read by nothing. -/
  nsacrNstrcdis : Bool
  /-- `FPSCR.Stride` (R68); PRESUMED width 2 (G10). -/
  fpscrStride : BitVec 2
  /-- `FPSCR.Len` (R68); PRESUMED width 3 (G10). -/
  fpscrLen : BitVec 3
  /-- `FPSCR.{IDE, IXE, UFE, OFE, DZE, IOE}` (R68). -/
  fpscrEnables : PerException Bool
  /-- `FPSCR.FZ` (R68). -/
  fpscrFz : Bool
  /-- `FPSCR.FZ16` (R68). -/
  fpscrFz16 : Bool
  deriving DecidableEq, Repr, Inhabited

/-- The draws of UNKNOWN bits (R23, D3), indexed by the counter `State.draws`. FREE VALUE: no body, nothing is known of
it (assumption 2). -/
opaque Config.draw : Nat → Bool

/-- The general registers and the pc after a reset event (R172). FREE VALUE: no body (assumption 14). -/
opaque Config.freeWord : Nat → Word

/-- Every input of the enclosing machine after a reset event (R172). FREE VALUE: no body (assumption 14). -/
opaque Config.freeEnv : Nat → Env

/-- The conditions of the T32 instructions after a reset event (R172). FREE VALUE: no body (assumption 14). -/
opaque Config.freeConds : Nat → List Cond

end Sys2Proof
end

