-- ==== Sys2Proof/Machine/State.lean ====
section
/-! DEFINITION. The state as plain data: the FPEXC cells (R33), the borrowed general registers and pc (R60, R61), the
parameters and inputs (R7 to R14, R66 to R68), the program text (R88), the enclosing machine's pending events (R29),
and the counter of draws; the reasons a step can stop; and the state after reset. -/

namespace Sys2Proof.Machine

/-- A storage cell of FPEXC: 0, 1 or UNKNOWN (R33). -/
inductive Cell where
  | zero
  | one
  | u
  deriving DecidableEq, Repr, Inhabited

/-- The reserved cells `S.RESV[n]` (R33, R53): bit n of `unknown` says that cell n is `U`; where it is clear, bit n of
`value` is the cell's value. Positions that are not reserved hold 0 in both (assumption 19). -/
structure ResvCells where
  value : Word
  unknown : Word
  deriving DecidableEq, Repr

/-- The FPEXC state `S` (R33). A cell that the configuration does not make a storage bit holds `zero` and is never read
(assumption 18). Bit 31 (EX) has no cell in any configuration (R36). -/
structure Fpexc where
  /-- `S.EN` (R37). -/
  en : Cell
  /-- `S.DEX` (R38). -/
  dex : Cell
  /-- `S.TFV` (R41). -/
  tfv : Cell
  /-- `S.IDF`, `S.IXF`, `S.UFF`, `S.OFF`, `S.DZF`, `S.IOF` (R44, R46 to R50). -/
  flags : PerException Cell
  /-- `S.RESV[n]` (R53). -/
  resv : ResvCells
  deriving DecidableEq, Repr

/-- The seventeen instructions that take an exception when FPSCR.Stride or FPSCR.Len is non-zero (R41, R157). -/
inductive ShortVectorOp where
  | vabs | vadd | vdiv | vfma | vfms | vfnma | vfnms | vmla | vmls | vmov | vmul | vneg | vnmla | vnmls | vnmul | vsqrt
  | vsub
  deriving DecidableEq, Repr

/-- The cause of a synchronous exception, as the recording step takes it (R156, R157). -/
inductive Cause where
  /-- An unallocated instruction of the encoding space (R157). -/
  | unallocated
  /-- Any other synchronous exception of the encoding space (R157, D21). -/
  | otherSync
  /-- One of the seventeen instructions with Stride or Len non-zero (R157). -/
  | strideLen (op : ShortVectorOp)
  /-- Trapped floating-point exceptions (R157, R158): the set `trapped`; whether the instruction is a half-precision
  data-processing instruction; whether its only input denormal was a half-precision value flushed because FPSCR.FZ16 is 1. -/
  | trappedFp (half : Bool) (fz16Flush : Bool) (trapped : PerException Bool)
  deriving DecidableEq, Repr

/-- The storage whose accesses FPEXC.EN enables (R65, R150). -/
inductive FpReg where
  | fpscr
  | q (n : Fin 16)
  | d (n : Fin 32)
  | s (n : Fin 32)
  deriving DecidableEq, Repr

/-- What the enclosing machine does between instructions (R29, R156, R154, R170, R178), and when the next one executes. -/
inductive Event where
  /-- An instruction took a synchronous exception. `cp10or11` is the result of `ExecutingCP10or11Instr()`, an input
  (R28, R156). -/
  | syncException (cp10or11 : Bool) (cause : Cause)
  /-- An instruction outside this spec attempts to access `reg`; `otherControl` says that a control other than FPEXC.EN
  disables or traps it, an input (R150, R153, R154). -/
  | fpAccess (reg : FpReg) (otherControl : Bool)
  /-- A context-synchronisation event (R178). -/
  | contextSync
  /-- The enclosing machine supplies the inputs of the steps that follow (R29, R62, R66 to R68); `PSTATE.EL` stays (D25,
  assumption 6). -/
  | inputs (env : Env) (itConds : List Cond)
  /-- The instruction at the pc executes before the next event of the queue (R29, assumption 13). -/
  | instruction
  /-- A reset of the PE (R170, R171). -/
  | reset
  deriving DecidableEq, Repr

/-- The machine. -/
structure State where
  /-- The implementation parameters (R7 to R14); no step changes them. -/
  params : Params
  /-- The inputs (R62, R66 to R68, R102, R110); no step but an `inputs` or a reset event changes them. -/
  env : Env
  /-- The conditions an enclosing IT block gives the T32 instructions to come, the next one's first: each executed T32
  instruction takes its own, and one beyond the list is outside any IT block (R62, R102, assumption 7). -/
  itConds : List Cond
  /-- The FPEXC cells (R33). -/
  fpexc : Fpexc
  /-- Under `P_SYNC` = `needs_sync`, the EN value that a floating-point instruction may still see instead of `S.EN`
  (R178); `none` when there is none. -/
  staleEn : Option Cell
  /-- R0 to R14 (R60); R15 is `pc`. -/
  regs : Vector Word 15
  /-- The address of the instruction being executed, and R15 (R60, R61). -/
  pc : Word
  /-- The program text (R88, D13): address and byte pairs, addresses strictly rising. -/
  text : List Host.Cell
  /-- MODEL'S OWN: the enclosing machine's pending events, oldest first; where it is empty, instructions execute
  (assumption 13). -/
  events : List Event
  /-- MODEL'S OWN: how many draws have been taken (R23, assumption 2). -/
  draws : Nat
  deriving DecidableEq, Repr

/-- The terminal outcomes of R140 to R142: the step ends the run and changes nothing (R145, D8). -/
inductive Fault where
  /-- `Undefined` (R140). Raised by an FPEXC access on arms E0.1, E1.1, E3.1, and by an access to the FPSCR or a SIMD and
  floating-point register while the effective EN is 0 (R150). Safe: the hardware takes an exception the spec does not describe. -/
  | undefined
  /-- `TrapA64(EL2, code)` (R141). Raised by an FPEXC access on arms E1.2, E1.3, E1.5, E2.1, E2.2. Safe, as above. -/
  | trapA64 (target : EL) (code : Nat)
  /-- `TrapHyp(code)` (R142). Raised by an FPEXC access on arms E1.4, E1.6, E2.3. Safe, as above. -/
  | trapHyp (code : Nat)
  deriving DecidableEq, Repr

/-- The steps the spec gives no meaning. Each is safe: it ends the run where nothing may be claimed. -/
inductive Refusal where
  /-- An instruction that has no meaning in the model yet; raised by no arm of `exec`. -/
  | notModelled (mnemonic : String)
  /-- `Refused(no_fp)`: raised, in an implementation with `P_HAVE_FP` false, by every pending event and every access the
  fetch gives (R7, D16); a fetch that gives none is refused by the fetch's own name first (DESIGN CHOICE, assumption 22).
  Safe. -/
  | noFp
  /-- `Refused(rt_is_pc)`: raised by an access with `t` = 15 (R127, D10). Safe. -/
  | rtIsPc
  /-- `Refused(rt_is_sp_t32)`: raised by a T32 access with `t` = 13 when `P_T32_SP_OK` is false (R127, D10). Safe. -/
  | rtIsSpT32
  /-- `Refused(not_in_scope)`: raised by the fetch of a word that is no row of the opcode table, and by an A32 form with
  `cond` = `1111` (R112, D18). Safe. -/
  | notInScope
  /-- Raised by the fetch where the program text holds no instruction; a program's end (D26). Safe. -/
  | noProgramText
  /-- Raised by the recording of a cause that cannot occur in the configuration (R156, R157). Safe. -/
  | recordCannotOccur
  /-- Raised by the recording of a cause whose inputs break the constraints of R157 and R158. Safe. -/
  | recordInadmissible
  /-- Raised by a floating-point access that a control other than FPEXC.EN disables or traps: the spec gives no rule for
  that control (R153). Safe. -/
  | otherControl
  deriving DecidableEq, Repr

/-- The implementation `State.reset` is a machine of: CFG_D of R10 (every status cell exists), reserved bits hardwired,
reset into AArch32, SP admitted in T32, writes immediate. DESIGN CHOICE, unsafe for a claim about `State.reset` alone
(assumption 1); statements quantify over `params`. -/
def paramsAtReset : Params :=
  { haveFp := true, trapFpexc := true, strideLenRaz := false, resetAArch32 := true, el0Tge := .byEn, res := .hardwired,
    t32SpOk := true, sync := .immediate }

/-- The environment at `State.reset`: the base input of 95_test_vectors.md section 2.7 at EL1, where its program P1
starts. DESIGN CHOICE, unsafe for a claim about `State.reset` alone: the spec gives no input a value at reset (R172,
assumption 5). -/
def envAtReset : Env :=
  { iset := .a32, flags := ⟨false, false, false, false⟩, el := .el1, el1AArch32 := true, el2AArch32 := true,
    el3AArch32 := true, el2Enabled := false, scrNs := false, nsacrCp10 := true, cpacrCp10 := 0b11, hcrEl2E2h := false,
    cptrEl2Tfp := false, cptrEl2Fpen := 0b11, hcptrTcp10 := false, hcrEl2Tid3 := false, hcrTid3 := false, hcrEl2Rw := false,
    hcrEl2Tge := false, cpacrEl1Fpen := 0, cpacrAsedis := false, hcptrTase := false, nsacrNstrcdis := false,
    fpscrStride := 0, fpscrLen := 0, fpscrEnables := ⟨false, false, false, false, false, false⟩, fpscrFz := false,
    fpscrFz16 := false }

/-- The machine right after reset. S is R69's state for CFG_D with hardwired reserved bits: EN is 0 and every other cell
is `U`. General registers and pc: the spec gives no reset value (R172); DESIGN CHOICE zero (assumptions 3 and 4). -/
def State.reset : State :=
  { params := paramsAtReset
    env := envAtReset
    itConds := []
    fpexc := { en := .zero, dex := .u, tfv := .u, flags := ⟨.u, .u, .u, .u, .u, .u⟩, resv := ⟨0, 0⟩ }
    staleEn := none
    regs := Vector.replicate 15 0
    pc := 0
    text := []
    events := []
    draws := 0 }

end Sys2Proof.Machine
end

