-- ==== Sys2Proof/Machine/Ops.lean ====
section
/-! DEFINITION. The named operations over program text, registers, draws and the pc; ending a step in a terminal outcome
(the spec's whole description of an exception, R145); fetching an instruction. -/

namespace Sys2Proof.Machine

/-! ### Bits -/

/-- The bit vector whose bit `n` is `f n`. -/
def bitsOf : (w : Nat) → (Nat → Bool) → BitVec w
  | 0, _ => 0#0
  | w + 1, f => BitVec.cons (f w) (bitsOf w f)

/-! ### Program text (R88) -/

/-- Program text: address and byte pairs. An address that is not listed has no value (assumption 9). -/
abbrev Memory := List Host.Cell

/-- All addresses of `m` lie above `a`. -/
def Memory.above (a : Nat) : Memory → Bool
  | [] => true
  | (b, _) :: _ => decide (a < b)

/-- The canonical form: addresses strictly rising and below 2^32. An unlisted address has no value, so no entry can equal
what an unlisted address reads as. -/
def Memory.wf : Memory → Bool
  | [] => true
  | (a, _) :: rest => decide (a < 2 ^ 32) && Memory.above a rest && Memory.wf rest

/-- The byte at an address, if one is listed. -/
def Memory.read : Memory → Nat → Option Byte
  | [], _ => none
  | (b, v) :: rest, a => if a = b then some v else Memory.read rest a

/-- Put a byte at an address, keeping the canonical form. -/
def Memory.write : Memory → Nat → Byte → Memory
  | [], a, v => [(a, v)]
  | (b, u) :: rest, a, v =>
    if a < b then (a, v) :: (b, u) :: rest
    else if a = b then (a, v) :: rest
    else (b, u) :: Memory.write rest a v

/-- Put bytes at an address and the addresses after it, wrapping at 2^32. -/
def Memory.writeBytes : Memory → Word → List Byte → Memory
  | m, _, [] => m
  | m, a, v :: vs => Memory.writeBytes (Memory.write m a.toNat v) (a + 1) vs

/-- At most `n` consecutive bytes from an address on, up to the first that is not listed, wrapping at 2^32. -/
def Memory.readBytes : Memory → Word → Nat → List Byte
  | _, _, 0 => []
  | m, a, n + 1 =>
    match Memory.read m a.toNat with
    | some v => v :: Memory.readBytes m (a + 1) n
    | none => []

/-! ### Draws (R23, D3) -/

/-- Draw number `n` of the next block of draws: a free value, fresh because every step that takes draws moves the
counter past them. -/
def State.drawn (s : State) (n : Nat) : Bool := Config.draw (s.draws + n)

/-- Take a block of `n` draws. -/
def State.takeDraws (s : State) (n : Nat) : State := { s with draws := s.draws + n }

/-- The value of a cell: its own, or the draw `d` where it is `U` (R52's `known`). -/
def Cell.known : Cell → Bool → Bool
  | .zero, _ => false
  | .one, _ => true
  | .u, d => d

/-- The cell that holds a bit. -/
def Cell.ofBool : Bool → Cell
  | false => .zero
  | true => .one

/-- R156's `keep0`: a bit the hardware may clear or may leave. -/
def Cell.keep0 : Cell → Cell
  | .zero => .zero
  | .one => .u
  | .u => .u

/-! ### Registers and the pc (R60, R61) -/

/-- `R[t]`. R15 is the pc (assumption 12); R127 refuses every access to it. -/
def State.readReg (s : State) (t : RegNum) : Word :=
  if h : t.toNat < 15 then s.regs[t.toNat] else s.pc

/-- `R[t] <- v`. -/
def State.writeReg (s : State) (t : RegNum) (v : Word) : State :=
  if t.toNat < 15 then { s with regs := s.regs.setIfInBounds t.toNat v } else { s with pc := v }

/-- `pc <- pc + 4`, modulo 2^32 (R61). -/
def State.advance (s : State) : State := { s with pc := s.pc + 4 }

/-! ### The condition of a T32 instruction (R62) -/

/-- The state without the condition that the executing instruction has taken: a T32 instruction takes the first of
`itConds`, an A32 instruction, which has its own field, none (R62, R102). -/
def State.condTaken (s : State) : InstrSet → State
  | .a32 => s
  | .t32 => { s with itConds := s.itConds.tail }

/-! ### Outcomes -/

/-- What the access check answers (R122). -/
inductive CheckResult where
  | allow
  | undefined
  | trapA64 (target : EL) (code : Nat)
  | trapHyp (code : Nat)
  deriving DecidableEq, Repr

/-- The fault a check that is not `Allow` ends the step with (R140 to R142). -/
def CheckResult.fault? : CheckResult → Option Fault
  | .allow => none
  | .undefined => some .undefined
  | .trapA64 target code => some (.trapA64 target code)
  | .trapHyp code => some (.trapHyp code)

/-- Taking an exception, as far as the spec describes it: the step ends with the terminal outcome, carrying exactly what
the source prints, and S, R and pc keep their values (R145, D8); no vector, saved state or mode change is given, and no
return (R146). -/
def takeException (f : Fault) : Host.Outcome State Fault Refusal := .fault f

/-- Go on with the next state where the check allows it; otherwise take its exception before anything is read or written
(R123, R124, R144). -/
def guarded (c : CheckResult) (next : State) : Host.Outcome State Fault Refusal :=
  match c.fault? with
  | none => .next next
  | some f => takeException f

/-! ### Fetch (R82, R88, R110) -/

/-- Why a fetch gives no instruction. -/
def fetchRefusal : DecodeError → Refusal
  | .truncated => .noProgramText
  | .notInScope => .notInScope

/-- The instruction at the pc, in the instruction set of the environment. -/
def State.fetch (s : State) : Except Refusal Instr :=
  match decode s.env.iset (Memory.readBytes s.text s.pc 4) with
  | .ok (i, _) => .ok i
  | .error e => .error (fetchRefusal e)

/-- The state with the four bytes of a word stored at the pc, in the instruction set given, and no event before it. -/
def State.placeWord (s : State) (set : InstrSet) (w : Word) : State :=
  { s with env := { s.env with iset := set }, events := [], text := Memory.writeBytes s.text s.pc (layout set w) }

end Sys2Proof.Machine
end

