-- ==== Sys2Proof/Machine/Flags.lean ====
section
/-! DEFINITION. Conditions (R102), the effective value of FPEXC.EN (R152), and the validity and values of FPEXC's status
bits under a read (R51, R52). -/

namespace Sys2Proof.Machine

/-! ### The condition table (R102) -/

/-- The condition a 4-bit `cond` field names; `1111` names none. -/
def condOfBits (b : BitVec 4) : Option Cond :=
  if b = 0b0000#4 then some .eq
  else if b = 0b0001#4 then some .ne
  else if b = 0b0010#4 then some .cs
  else if b = 0b0011#4 then some .cc
  else if b = 0b0100#4 then some .mi
  else if b = 0b0101#4 then some .pl
  else if b = 0b0110#4 then some .vs
  else if b = 0b0111#4 then some .vc
  else if b = 0b1000#4 then some .hi
  else if b = 0b1001#4 then some .ls
  else if b = 0b1010#4 then some .ge
  else if b = 0b1011#4 then some .lt
  else if b = 0b1100#4 then some .gt
  else if b = 0b1101#4 then some .le
  else if b = 0b1110#4 then some .al
  else none

/-- When a condition holds of N, Z, C, V. -/
def condHolds (c : Cond) (f : CondFlags) : Bool :=
  match c with
  | .eq => f.z
  | .ne => !f.z
  | .cs => f.c
  | .cc => !f.c
  | .mi => f.n
  | .pl => !f.n
  | .vs => f.v
  | .vc => !f.v
  | .hi => f.c && !f.z
  | .ls => !f.c || f.z
  | .ge => f.n == f.v
  | .lt => f.n != f.v
  | .gt => !f.z && f.n == f.v
  | .le => f.z || f.n != f.v
  | .al => true

/-- `cond_passed` of the next T32 instruction: the condition the enclosing IT block has for it, or always outside one
(R62, R102). -/
def State.itPassed (s : State) : Bool := condHolds (s.itConds.headD .al) s.env.flags

/-! ### Configurations and reserved positions (R10, R31, R53) -/

/-- The configuration's name (R10). -/
def cfgName (p : Params) : CfgName :=
  match p.trapFpexc, p.strideLenRaz with
  | false, true => .cfgA
  | false, false => .cfgB
  | true, true => .cfgC
  | true, false => .cfgD

/-- Whether DEX is RES0 (R38): only in CFG_A. -/
def isCfgA (p : Params) : Bool := !p.trapFpexc && p.strideLenRaz

/-- Whether TFV has a cell (R41): only in CFG_D. -/
def isCfgD (p : Params) : Bool := p.trapFpexc && !p.strideLenRaz

/-- The reserved positions: 28, 27, 25 to 11, 10 to 8, 6, 5, and 29 in CFG_A (R33). -/
def isReserved (p : Params) (n : Nat) : Bool :=
  n == 28 || n == 27 || (decide (11 ≤ n) && decide (n ≤ 25)) || (decide (8 ≤ n) && decide (n ≤ 10)) || n == 6 || n == 5
    || (n == 29 && isCfgA p)

/-- The positions that have a reserved cell (R33, R53): none when the bits are hardwired. -/
def resvMask (p : Params) : Word :=
  match p.res with
  | .hardwired => 0
  | .stored => bitsOf 32 (isReserved p)

/-- Reserved cell n. -/
def resvCell (r : ResvCells) (n : Nat) : Cell :=
  if r.unknown.getLsbD n then .u else Cell.ofBool (r.value.getLsbD n)

/-- The bit position of an exception's flag (R31): IDF 7, IXF 4, UFF 3, OFF 2, DZF 1, IOF 0. -/
def flagPos : FpException → Nat
  | .inputDenormal => 7
  | .inexact => 4
  | .underflow => 3
  | .overflow => 2
  | .divideByZero => 1
  | .invalidOperation => 0

/-! ### The bits a read returns (R51, R52); `d n` is the draw for bit n -/

/-- R52's `res(n, f)`. -/
def readResv (p : Params) (f : Fpexc) (d : Nat → Bool) (n : Nat) (fixed : Bool) : Bool :=
  match p.res with
  | .hardwired => fixed
  | .stored => (resvCell f.resv n).known (d n)

/-- Bit 29, DEX. -/
def readDex (p : Params) (f : Fpexc) (d : Nat → Bool) : Bool :=
  if isCfgA p then readResv p f d 29 false else f.dex.known (d 29)

/-- Bit 26, TFV: valid only when bit 29 of the same read is 1 (R51). -/
def readTfv (p : Params) (f : Fpexc) (d : Nat → Bool) : Bool :=
  if !p.trapFpexc then false
  else if p.strideLenRaz then true
  else if readDex p f d then f.tfv.known (d 26)
  else d 26

/-- A flag bit: valid only when bits 29 and 26 of the same read are both 1 (R51, C6). -/
def readFlag (p : Params) (f : Fpexc) (d : Nat → Bool) (c : Cell) (n : Nat) : Bool :=
  if !p.trapFpexc then false
  else if readDex p f d && readTfv p f d then c.known (d n)
  else d n

/-! ### The effective value of EN (R152) -/

/-- `EffectiveEN(Env, S)`: `en` is the cell read, `d` its draw if it is `U`. -/
def effectiveEn (p : Params) (e : Env) (en : Cell) (d : Bool) : Bool :=
  if e.el = .el0 then
    if !e.el1AArch32 then true
    else if !e.el2AArch32 && e.el2Enabled && e.hcrEl2Rw && e.hcrEl2Tge then true
    else if !e.el2AArch32 && e.el2Enabled && !e.hcrEl2Rw && e.hcrEl2Tge && p.el0Tge == .asIfOne then true
    else en.known d
  else en.known d

end Sys2Proof.Machine
end

