-- ==== Sys2Proof/Machine/Operands.lean ====
section
/-! DEFINITION. The operands of the access forms: which `t` is admitted (R7, R127), the register as a source (R60), and
the two operations on the whole register FPEXC (R52, R54). -/

namespace Sys2Proof.Machine

/-! ### Admission (R7, R127) -/

/-- The refusal of an access before anything else is looked at: an implementation without the functionality (R7), then
`t` = 15, then `t` = 13 in T32 (R127). -/
def admission (p : Params) (set : InstrSet) (t : RegNum) : Option Refusal :=
  if !p.haveFp then some .noFp
  else if t = 15#4 then some .rtIsPc
  else if set = .t32 ∧ t = 13#4 ∧ p.t32SpOk = false then some .rtIsSpT32
  else none

/-! ### Reading the whole register (R52) -/

/-- Bit n of `FPEXC_read()`. -/
def fpexcReadBit (p : Params) (f : Fpexc) (d : Nat → Bool) (n : Nat) : Bool :=
  if n = 31 then false
  else if n = 30 then f.en.known (d 30)
  else if n = 29 then readDex p f d
  else if n = 26 then readTfv p f d
  else if n = 10 ∨ n = 9 ∨ n = 8 then readResv p f d n true
  else if n = 7 then readFlag p f d f.flags.inputDenormal 7
  else if n = 4 then readFlag p f d f.flags.inexact 4
  else if n = 3 then readFlag p f d f.flags.underflow 3
  else if n = 2 then readFlag p f d f.flags.overflow 2
  else if n = 1 then readFlag p f d f.flags.divideByZero 1
  else if n = 0 then readFlag p f d f.flags.invalidOperation 0
  else readResv p f d n false

/-- `FPEXC_read()`: it writes nothing; `d n` is the draw for bit n. -/
def fpexcRead (p : Params) (f : Fpexc) (d : Nat → Bool) : Word := bitsOf 32 (fpexcReadBit p f d)

/-! ### Writing the whole register (R54) -/

/-- The six flag cells a written word sets. -/
def flagsOfWord (w : Word) : PerException Cell :=
  { inputDenormal := Cell.ofBool (w.getLsbD 7)
    inexact := Cell.ofBool (w.getLsbD 4)
    underflow := Cell.ofBool (w.getLsbD 3)
    overflow := Cell.ofBool (w.getLsbD 2)
    divideByZero := Cell.ofBool (w.getLsbD 1)
    invalidOperation := Cell.ofBool (w.getLsbD 0) }

/-- `FPEXC_write(w)`: bits 31 and 26 of `w` are ignored in every configuration (R36, R41). -/
def fpexcWrite (p : Params) (f : Fpexc) (w : Word) : Fpexc :=
  { en := Cell.ofBool (w.getLsbD 30)
    dex := if isCfgA p then f.dex else Cell.ofBool (w.getLsbD 29)
    tfv := f.tfv
    flags := if p.trapFpexc then flagsOfWord w else f.flags
    resv :=
      match p.res with
      | .hardwired => f.resv
      | .stored => { value := w &&& resvMask p, unknown := 0 } }

/-- The EN value a floating-point instruction may still see after a write (R178): nothing under `immediate`; under
`needs_sync` the EN before the write, or `U` where an earlier write left another value still visible. -/
def staleAfterWrite (p : Params) (stale : Option Cell) (old : Cell) : Option Cell :=
  match p.sync with
  | .immediate => stale
  | .needsSync =>
    match stale with
    | none => some old
    | some c => some (if c = old then c else .u)

/-! ### The two operations on the state -/

/-- `R[t] <- FPEXC_read()`, taking a block of 32 draws, and the pc advance (R123). -/
def State.moveFromFpexc (s : State) (t : RegNum) : State :=
  ((s.writeReg t (fpexcRead s.params s.fpexc s.drawn)).takeDraws 32).advance

/-- `FPEXC_write(R[t])` and the pc advance (R124). -/
def State.moveToFpexc (s : State) (t : RegNum) : State :=
  { s with
    fpexc := fpexcWrite s.params s.fpexc (s.readReg t)
    staleEn := staleAfterWrite s.params s.staleEn s.fpexc.en
    pc := s.pc + 4 }

end Sys2Proof.Machine
end

