-- ==== Sys2Proof/Machine/Access.lean ====
section
/-! DEFINITION. The FPEXC access instructions: the access check (R120 to R122), conditional execution (R126), and the
four forms (R123, R124). -/

namespace Sys2Proof.Machine

/-! ### The access check (R122) -/

/-- The arms of the access check, by the spec's labels. -/
inductive Arm where
  | e0p1
  | e1p1 | e1p2 | e1p3 | e1p4 | e1p5 | e1p6 | e1p7
  | e2p1 | e2p2 | e2p3 | e2p4
  | e3p1 | e3p2
  deriving DecidableEq, Repr

/-- `NSdeny` (R122). -/
def nsDeny (e : Env) : Bool := e.el3AArch32 && e.scrNs && !e.nsacrCp10

/-- `CPTR_EL2.FPEN == 'x0'`: bit 0 of the field is 0 (R16, R122). -/
def fpenX0 (e : Env) : Bool := !e.cptrEl2Fpen.getLsbD 0

/-- `EL2Enabled() && !ELUsingAArch32(EL2)`. -/
def el2A64 (e : Env) : Bool := e.el2Enabled && !e.el2AArch32

/-- `EL2Enabled() && ELUsingAArch32(EL2)`. -/
def el2A32 (e : Env) : Bool := e.el2Enabled && e.el2AArch32

/-- The first arm, in the order printed, whose condition is true (R120, R122, R144). -/
def accessArm (e : Env) : Arm :=
  match e.el with
  | .el0 => .e0p1
  | .el1 =>
    if e.el1AArch32 && (nsDeny e || e.cpacrCp10 == 0b00#2) then .e1p1
    else if el2A64 e && !e.hcrEl2E2h && e.cptrEl2Tfp then .e1p2
    else if el2A64 e && e.hcrEl2E2h && fpenX0 e then .e1p3
    else if el2A32 e && (nsDeny e || e.hcptrTcp10) then .e1p4
    else if el2A64 e && e.hcrEl2Tid3 then .e1p5
    else if el2A32 e && e.hcrTid3 then .e1p6
    else .e1p7
  | .el2 =>
    if !e.hcrEl2E2h && e.cptrEl2Tfp then .e2p1
    else if e.hcrEl2E2h && fpenX0 e then .e2p2
    else if el2A32 e && (nsDeny e || e.hcptrTcp10) then .e2p3
    else .e2p4
  | .el3 => if e.cpacrCp10 == 0b00#2 then .e3p1 else .e3p2

/-- What an arm answers, with the codes as printed (R122, R143). -/
def armResult : Arm → CheckResult
  | .e0p1 => .undefined
  | .e1p1 => .undefined
  | .e1p2 => .trapA64 .el2 0x07
  | .e1p3 => .trapA64 .el2 0x07
  | .e1p4 => .trapHyp 0x08
  | .e1p5 => .trapA64 .el2 0x08
  | .e1p6 => .trapHyp 0x08
  | .e1p7 => .allow
  | .e2p1 => .trapA64 .el2 0x07
  | .e2p2 => .trapA64 .el2 0x07
  | .e2p3 => .trapHyp 0x00
  | .e2p4 => .allow
  | .e3p1 => .undefined
  | .e3p2 => .allow

/-- `FPEXC_AccessCheck(Env)` (R122). It reads the environment alone, and of FPEXC nothing (R125). -/
def accessCheck (e : Env) : CheckResult := armResult (accessArm e)

/-! ### Conditional execution (R126) -/

/-- An instruction whose condition fails: a no-op that only advances the pc; or, where the check is not `Allow` and the
free value says so, the outcome of the check all the same (R126, D9, assumption 8). -/
def condFailed (s : State) : Host.Outcome State Fault Refusal :=
  match (accessCheck s.env).fault? with
  | none => .next s.advance
  | some f => if s.drawn 0 then takeException f else .next (s.takeDraws 1).advance

/-- The common frame of R123 and R124: admission, condition, check, and then the form's own `effect`. The instruction has
taken its condition (R62). -/
def accessForm (set : InstrSet) (passed : Bool) (t : RegNum) (s : State) (effect : State → State) :
    Host.Outcome State Fault Refusal :=
  match admission s.params set t with
  | some r => .refused r
  | none =>
    if passed then guarded (accessCheck s.env) (effect (s.condTaken set)) else condFailed (s.condTaken set)

/-- An A32 form: its condition is its `cond` field, and `1111` is no instruction (R102, R112). -/
def accessA32 (cond : BitVec 4) (t : RegNum) (s : State) (effect : State → State) :
    Host.Outcome State Fault Refusal :=
  match condOfBits cond with
  | none => .refused .notInScope
  | some c => accessForm .a32 (condHolds c s.env.flags) t s effect

/-- A T32 form: its condition comes from the enclosing IT block (R102). -/
def accessT32 (t : RegNum) (s : State) (effect : State → State) : Host.Outcome State Fault Refusal :=
  accessForm .t32 s.itPassed t s effect

/-! ### The four instructions -/

/-- `VMRS{<c>}{<q>} <Rt>, FPEXC`, A1 (R105, R123). -/
def execVmrsA1 (cond : BitVec 4) (t : RegNum) (s : State) : Host.Outcome State Fault Refusal :=
  accessA32 cond t s fun s => s.moveFromFpexc t

/-- `VMSR{<c>}{<q>} FPEXC, <Rt>`, A1 (R106, R124). -/
def execVmsrA1 (cond : BitVec 4) (t : RegNum) (s : State) : Host.Outcome State Fault Refusal :=
  accessA32 cond t s fun s => s.moveToFpexc t

/-- `VMRS{<c>}{<q>} <Rt>, FPEXC`, T1 (R107, R123). -/
def execVmrsT1 (t : RegNum) (s : State) : Host.Outcome State Fault Refusal :=
  accessT32 t s fun s => s.moveFromFpexc t

/-- `VMSR{<c>}{<q>} FPEXC, <Rt>`, T1 (R108, R124). -/
def execVmsrT1 (t : RegNum) (s : State) : Host.Outcome State Fault Refusal :=
  accessT32 t s fun s => s.moveToFpexc t

end Sys2Proof.Machine
end

