-- ==== Sys2Proof/Machine/Dispatch.lean ====
section
/-! DEFINITION. The meaning of every instruction: one arm per constructor, each a direct call. -/

namespace Sys2Proof.Machine

/-- One instruction. -/
def exec (i : Instr) (s : State) : Host.Outcome State Fault Refusal :=
  match i with
  | .vmrsA1 cond t => Sys2Proof.Machine.execVmrsA1 cond t s
  | .vmsrA1 cond t => Sys2Proof.Machine.execVmsrA1 cond t s
  | .vmrsT1 t => Sys2Proof.Machine.execVmrsT1 t s
  | .vmsrT1 t => Sys2Proof.Machine.execVmsrT1 t s

end Sys2Proof.Machine
end

