-- ==== Sys2Proof/Machine/Events.lean ====
section
/-! DEFINITION. The instruction at the pc, and what happens between instructions: the recording step (R156 to R159), an attempted floating-point access
and the effective EN (R150 to R154, R178), a context-synchronisation event (R178), new inputs (R29), and reset (R170 to
R172). -/

namespace Sys2Proof.Machine

/-! ### The recording step `FPEXC_Record(cause, trapped)` (R156) -/

/-- The flags after trapped exceptions: a member of `trapped` is set; any other bit is `keep0` (R156, R159). -/
def recordFlags (old : PerException Cell) (trapped : PerException Bool) : PerException Cell :=
  { inputDenormal := if trapped.inputDenormal then .one else old.inputDenormal.keep0
    inexact := if trapped.inexact then .one else old.inexact.keep0
    underflow := if trapped.underflow then .one else old.underflow.keep0
    overflow := if trapped.overflow then .one else old.overflow.keep0
    divideByZero := if trapped.divideByZero then .one else old.divideByZero.keep0
    invalidOperation := if trapped.invalidOperation then .one else old.invalidOperation.keep0 }

/-- All six flags UNKNOWN. -/
def flagsUnknown : PerException Cell := ⟨.u, .u, .u, .u, .u, .u⟩

/-- The DEX = 0 row: an unallocated instruction, or any other synchronous exception of the encoding space (R156). -/
def recordUndefinedRow (p : Params) (f : Fpexc) : Fpexc :=
  { f with
    dex := if isCfgA p then f.dex else f.dex.keep0
    tfv := if isCfgD p then .u else f.tfv
    flags := if p.trapFpexc then flagsUnknown else f.flags }

/-- `FPEXC_Record`; `none` where the cause cannot occur in the configuration (R156, R157). EN and the reserved cells are
never changed. -/
def fpexcRecord (p : Params) (f : Fpexc) (cause : Cause) : Option Fpexc :=
  match cause with
  | .unallocated => some (recordUndefinedRow p f)
  | .otherSync => some (recordUndefinedRow p f)
  | .strideLen _ =>
    if p.strideLenRaz then none
    else some { f with
      dex := .one
      tfv := if isCfgD p then .zero else f.tfv
      flags := if p.trapFpexc then flagsUnknown else f.flags }
  | .trappedFp _ _ trapped =>
    if p.trapFpexc then
      some { f with
        dex := .one
        tfv := if isCfgD p then .one else f.tfv
        flags := recordFlags f.flags trapped }
    else none

/-- Some member of a set of exceptions (R158: the set is non-empty). -/
def someException (t : PerException Bool) : Bool :=
  t.inputDenormal || t.inexact || t.underflow || t.overflow || t.divideByZero || t.invalidOperation

/-- Every member of the set was enabled in the FPSCR (R158: "occurred while" its enable bit was 1). -/
def allEnabled (t en : PerException Bool) : Bool :=
  (!t.inputDenormal || en.inputDenormal) && (!t.inexact || en.inexact) && (!t.underflow || en.underflow)
    && (!t.overflow || en.overflow) && (!t.divideByZero || en.divideByZero)
    && (!t.invalidOperation || en.invalidOperation)

/-- The constraints on the inputs of the recording step: R157 for Stride and Len, R158 for the set `trapped`. -/
def causeAdmissible (e : Env) : Cause → Bool
  | .unallocated => true
  | .otherSync => true
  | .strideLen _ => e.fpscrStride != 0 || e.fpscrLen != 0
  | .trappedFp half fz16Flush trapped =>
    someException trapped && allEnabled trapped e.fpscrEnables
      && (!trapped.inputDenormal || (e.fpscrFz && !fz16Flush))
      && (!trapped.underflow || !(if half then e.fpscrFz16 else e.fpscrFz))

/-- A synchronous exception generated by the attempted execution of an instruction: recorded when the instruction is in
the CP10/CP11 encoding space, and otherwise without effect on FPEXC (R156). The recording that R145 asks of an enclosing
machine for a VMRS or VMSR that ended in a terminal outcome is this event with cause `OtherSync`. -/
def stepSyncException (cp10or11 : Bool) (cause : Cause) (s : State) : Host.Outcome State Fault Refusal :=
  if cp10or11 then
    match fpexcRecord s.params s.fpexc cause with
    | none => .refused .recordCannotOccur
    | some f => if causeAdmissible s.env cause then .next { s with fpexc := f } else .refused .recordInadmissible
  else .next s

/-! ### An attempted access to the FPSCR or a SIMD and floating-point register (R150, R154, R178) -/

/-- The EN cell a floating-point instruction sees: `S.EN`, or, where a write is not yet synchronised, a free choice
between it and the earlier value (R178). -/
def enSeen (s : State) : Cell :=
  match s.staleEn with
  | none => s.fpexc.en
  | some old => if s.drawn 0 then old else s.fpexc.en

/-- The effective EN of the next floating-point instruction (R152, R178). -/
def enForAccess (s : State) : Bool := effectiveEn s.params s.env (enSeen s) (s.drawn 1)

/-- `FP_undefined_by_EN(Env, S)` (R154). -/
def fpUndefinedByEn (s : State) : Bool := !enForAccess s

/-- The access: `Undefined` where the predicate holds; otherwise EN permits it, and the transfer itself is the enclosing
machine's, so nothing of this state changes (R150, assumption 16). Every `reg` is treated alike (R150). -/
def stepFpAccess (_reg : FpReg) (otherControl : Bool) (s : State) : Host.Outcome State Fault Refusal :=
  if fpUndefinedByEn s then takeException .undefined
  else if otherControl then .refused .otherControl
  else .next (s.takeDraws 2)

/-! ### Synchronisation, inputs and reset -/

/-- A context-synchronisation event: a later floating-point instruction sees `S.EN` (R178). -/
def stepContextSync (s : State) : Host.Outcome State Fault Refusal := .next { s with staleEn := none }

/-- New inputs for the steps that follow: each is an input of the step, supplied by the enclosing machine (R29, R62, R66).
The Exception level is constant within a run (D25), so it stays. -/
def stepInputs (e : Env) (conds : List Cond) (s : State) : Host.Outcome State Fault Refusal :=
  .next { s with env := { e with el := s.env.el }, itConds := conds }

/-- The FPEXC cells after a reset (R69, R170). -/
def fpexcReset (p : Params) : Fpexc :=
  { en := if p.resetAArch32 then .zero else .u
    dex := if isCfgA p then .zero else .u
    tfv := if isCfgD p then .u else .zero
    flags := if p.trapFpexc then flagsUnknown else ⟨.zero, .zero, .zero, .zero, .zero, .zero⟩
    resv := { value := 0, unknown := resvMask p } }

/-- A reset of the PE (R170, R171). The spec gives the general registers, the pc and the inputs no reset value (R172):
they are free values afterwards. The program text is fixed for the run (R88). -/
def stepReset (s : State) : Host.Outcome State Fault Refusal :=
  .next { s with
    fpexc := fpexcReset s.params
    staleEn := none
    regs := Vector.ofFn (fun k : Fin 15 => Config.freeWord (s.draws + k.val))
    pc := Config.freeWord (s.draws + 15)
    env := Config.freeEnv s.draws
    itConds := Config.freeConds s.draws
    draws := s.draws + 16 }

/-! ### The instruction at the pc (R29) -/

/-- The fetched instruction executes; where the fetch gives none, its own refusal stands, with `P_HAVE_FP` false as well
(assumption 22). -/
def runInstruction (s : State) : Host.Outcome State Fault Refusal :=
  match s.fetch with
  | .ok i => exec i s
  | .error r => .refused r

/-- What each event does. -/
def runEvent (ev : Event) (s : State) : Host.Outcome State Fault Refusal :=
  match ev with
  | .syncException cp10or11 cause => stepSyncException cp10or11 cause s
  | .fpAccess reg otherControl => stepFpAccess reg otherControl s
  | .contextSync => stepContextSync s
  | .inputs e conds => stepInputs e conds s
  | .instruction => runInstruction s
  | .reset => stepReset s

/-- One event (R29). An implementation without the functionality is refused (R7, D16), an instruction's own refusals
deciding for it (assumption 22). -/
def stepEvent (ev : Event) (s : State) : Host.Outcome State Fault Refusal :=
  if !s.params.haveFp && ev != .instruction then .refused .noFp else runEvent ev s

end Sys2Proof.Machine
end

