-- ==== Sys2Proof/Machine/Step.lean ====
section
/-! DEFINITION. One step of the machine (R29): the enclosing machine's oldest pending event, or, when there is none, the
instruction at the pc. -/

namespace Sys2Proof.Machine

/-- One step. The fetch comes before the refusal of R7, so with `P_HAVE_FP` false a word that is no row of the table is
refused `notInScope` and missing text `noProgramText`, not `noFp`: the spec does not order R7 against R112 (DESIGN CHOICE,
safe, assumption 22). -/
def step (s : State) : Host.Outcome State Fault Refusal :=
  match s.events with
  | ev :: rest => stepEvent ev { s with events := rest }
  | [] => runInstruction s

/-- The state in which the next step fetches the instruction whose bits, numbered as the opcode table numbers them, are
`w` (assumption 11). -/
def State.withFetchWord (s : State) (nbits w : Nat) : State :=
  s.placeWord (tableSet (tableWord nbits w)) (tableWord nbits w)

end Sys2Proof.Machine
end

