-- ==== Sys2Proof/Safety.lean ====
section
/-! DEFINITION. What statements speak of: the invariant of the machine, the terms in which an access is ready to
complete, and what a step leaves alone. -/

namespace Sys2Proof.Machine

/-! ### The invariant -/

/-- The cells that the configuration does not make storage bits hold their placeholder, and a reserved cell's datum stands
at reserved positions only, in one form (R33; assumptions 18 and 19). -/
def fpexcWf (p : Params) (f : Fpexc) : Bool :=
  (!isCfgA p || f.dex == .zero) && (isCfgD p || f.tfv == .zero)
    && (p.trapFpexc || f.flags == ⟨.zero, .zero, .zero, .zero, .zero, .zero⟩)
    && f.resv.value &&& ~~~(resvMask p) == 0 && f.resv.unknown &&& ~~~(resvMask p) == 0
    && f.resv.value &&& f.resv.unknown == 0

/-- The invariant every step keeps: canonical program text, no cell that the configuration lacks (R33), and no
unsynchronised EN where writes are immediate (R178). -/
def State.wf (s : State) : Bool :=
  Memory.wf s.text && fpexcWf s.params s.fpexc && (s.params.sync == .needsSync || s.staleEn == none)

/-! ### When an access completes -/

/-- `cond_passed` of an instruction that executes next (R62, R102, R126). -/
def condPassed (i : Instr) (s : State) : Bool :=
  match i with
  | .vmrsA1 cond _ => ((condOfBits cond).map fun c => condHolds c s.env.flags).getD false
  | .vmsrA1 cond _ => ((condOfBits cond).map fun c => condHolds c s.env.flags).getD false
  | .vmrsT1 _ => s.itPassed
  | .vmsrT1 _ => s.itPassed

/-- The conditions left for the T32 instructions after this one (R62). -/
def condsAfter (i : Instr) (s : State) : List Cond :=
  match i.set with
  | .a32 => s.itConds
  | .t32 => s.itConds.tail

/-- The instruction is one of the table, the functionality is implemented (R7), and its register is admitted (R127). -/
def Admitted (i : Instr) (s : State) : Prop :=
  i.wf = true ∧ s.params.haveFp = true ∧ i.rt ≠ 15#4 ∧ (i.set = .t32 → i.rt = 13#4 → s.params.t32SpOk = true)

/-- The effect of a form that completes (R123, R124). -/
def formEffect (i : Instr) (s : State) : State :=
  match i with
  | .vmrsA1 _ t => s.moveFromFpexc t
  | .vmsrA1 _ t => s.moveToFpexc t
  | .vmrsT1 t => (s.condTaken .t32).moveFromFpexc t
  | .vmsrT1 t => (s.condTaken .t32).moveToFpexc t

/-! ### What a step leaves alone -/

/-- Everything but FPEXC, the registers, the pc and the T32 conditions, which are stated apart: the parameters, the
inputs, the pending events, and every byte of the program text. -/
def SameSurroundings (s s' : State) : Prop :=
  s'.params = s.params ∧ s'.env = s.env ∧ s'.events = s.events ∧ ∀ a, Memory.read s'.text a = Memory.read s.text a

/-- Every general register but those of the list reads as before. R15 is the pc, which is stated apart. -/
def SameRegsExcept (ts : List RegNum) (s s' : State) : Prop :=
  ∀ u : RegNum, u ∉ ts → u ≠ 15#4 → s'.readReg u = s.readReg u

/-- The FPEXC cells after a permitted write of `w` (R54): EN, DEX (but in CFG_A), the six flags (with trapping), and each
reserved cell that exists take their bit of `w`; TFV and everything else keeps its value. -/
def WrittenWith (p : Params) (old : Fpexc) (w : Word) (new : Fpexc) : Prop :=
  new.en = Cell.ofBool (w.getLsbD 30) ∧
  new.dex = (if cfgName p = .cfgA then old.dex else Cell.ofBool (w.getLsbD 29)) ∧
  new.tfv = old.tfv ∧
  (∀ x, new.flags.get x = if p.trapFpexc = true then Cell.ofBool (w.getLsbD (flagPos x)) else old.flags.get x) ∧
  (p.res = .hardwired → new.resv = old.resv) ∧
  (p.res = .stored → ∀ n, isReserved p n = true → resvCell new.resv n = Cell.ofBool (w.getLsbD n))

/-- A no-op that took `k` draws: the pc moves past the instruction and nothing else changes (R126 (a)). -/
def NoOp (k : Nat) (s s' : State) : Prop :=
  s'.pc = s.pc + 4 ∧ s'.fpexc = s.fpexc ∧ s'.staleEn = s.staleEn ∧ s'.draws = s.draws + k ∧ SameRegsExcept [] s s' ∧
    SameSurroundings s s'

/-- A recording: EN, the reserved cells, every register, the pc and everything outside FPEXC keep their values, and the
event is done (R156). -/
def RecordedOnly (rest : List Event) (s s' : State) : Prop :=
  s'.fpexc.en = s.fpexc.en ∧ s'.fpexc.resv = s.fpexc.resv ∧ s'.staleEn = s.staleEn ∧ s'.regs = s.regs ∧ s'.pc = s.pc ∧
    s'.draws = s.draws ∧ s'.params = s.params ∧ s'.env = s.env ∧ s'.itConds = s.itConds ∧ s'.events = rest ∧
    ∀ a, Memory.read s'.text a = Memory.read s.text a

/-- The flags are exactly the members of `trapped`, where every other flag was 0 before (R158, R159). -/
def FlagsRecorded (trapped : PerException Bool) (old new : PerException Cell) : Prop :=
  ∀ x, (trapped.get x = true → new.get x = .one) ∧ (trapped.get x = false → old.get x = .zero → new.get x = .zero) ∧
    (trapped.get x = false → old.get x ≠ .zero → new.get x = .u)

/-! ### Projections of an outcome, for statements and tests -/

/-- The next state, if there is one. -/
def nextOf : Host.Outcome State Fault Refusal → Option State
  | .next s => some s
  | .fault _ => none
  | .refused _ => none

/-- The fault, if there is one. -/
def faultOf : Host.Outcome State Fault Refusal → Option Fault
  | .next _ => none
  | .fault r => some r
  | .refused _ => none

/-- The refusal, if there is one. -/
def refusalOf : Host.Outcome State Fault Refusal → Option Refusal
  | .next _ => none
  | .fault _ => none
  | .refused r => some r

end Sys2Proof.Machine
end

