-- ==== Sys2Proof/Certificates/Slice0/Obligations.lean ====
section
/-! DEFINITION. The statements for the provers, each with the rule of the spec it comes from. -/

open Sys2Proof Sys2Proof.Machine

/-! ### Encoding -/

/-- R105 to R110: decoding the bytes of a well-formed instruction, whatever follows them, gives it back. The bit patterns
are the spec's general knowledge (G2) and the byte order is assumption 9. -/
def Obligations.DecodeInvertsEncode : Prop :=
  ∀ (i : Instr) (rest : List Byte), i.wf = true → decode i.set (encode i ++ rest) = .ok (i, rest)

/-- R112: the decoder accepts nothing but the encodings of well-formed instructions of its instruction set, so no two
byte strings decode to one instruction (patterns: G2; byte order: assumption 9). -/
def Obligations.EncodeInvertsDecode : Prop :=
  ∀ (set : InstrSet) (bytes : List Byte) (i : Instr) (rest : List Byte), decode set bytes = .ok (i, rest) →
    i.wf = true ∧ i.set = set ∧ bytes = encode i ++ rest

/-- R105, R106, R112, as 95_test_vectors.md section 2.10 writes the words: an A32 word is an instruction of this spec
exactly when it is `cond<<28 | 0x0EF80A10 | t<<12` or `cond<<28 | 0x0EE80A10 | t<<12` with `cond` not `1111`. -/
def Obligations.A32WordsDecodedExactly : Prop :=
  ∀ (w : Word) (i : Instr), decodeWord .a32 w = some i ↔
    ∃ (cond : BitVec 4) (t : RegNum), cond ≠ 0b1111#4 ∧
      ((i = .vmrsA1 cond t ∧ w = (cond.setWidth 32 <<< 28) ||| 0x0EF80A10#32 ||| (t.setWidth 32 <<< 12)) ∨
        (i = .vmsrA1 cond t ∧ w = (cond.setWidth 32 <<< 28) ||| 0x0EE80A10#32 ||| (t.setWidth 32 <<< 12)))

/-- R107, R108, R112: a 32-bit T32 value `hw1 : hw2` is an instruction of this spec exactly when `hw1` is `0xEEF8` or
`0xEEE8` and `hw2` is `0x0A10 | t<<12`. -/
def Obligations.T32WordsDecodedExactly : Prop :=
  ∀ (w : Word) (i : Instr), decodeWord .t32 w = some i ↔
    ∃ t : RegNum,
      (i = .vmrsT1 t ∧ w = 0xEEF8#16 ++ (0x0A10#16 ||| (t.setWidth 16 <<< 12))) ∨
        (i = .vmsrT1 t ∧ w = 0xEEE8#16 ++ (0x0A10#16 ||| (t.setWidth 16 <<< 12)))

/-- The worked encodings X1 to X8 decode as 95_test_vectors.md section 2.10 says, and X9, X10, X11 and X13 are refused. -/
def Obligations.SpecWordsDecode : Prop :=
  decodeWord .a32 0xEEF80A10#32 = some (.vmrsA1 0b1110#4 0) ∧ decodeWord .a32 0xEEE80A10#32 = some (.vmsrA1 0b1110#4 0) ∧
  decodeWord .a32 0xEEF81A10#32 = some (.vmrsA1 0b1110#4 1) ∧ decodeWord .a32 0xEEE8CA10#32 = some (.vmsrA1 0b1110#4 12) ∧
  decodeWord .a32 0x1EF83A10#32 = some (.vmrsA1 0b0001#4 3) ∧ decodeWord .a32 0x0EE8EA10#32 = some (.vmsrA1 0b0000#4 14) ∧
  decodeWord .t32 0xEEF80A10#32 = some (.vmrsT1 0) ∧ decodeWord .t32 0xEEE82A10#32 = some (.vmsrT1 2) ∧
  decodeWord .a32 0xFEF80A10#32 = none ∧ decodeWord .a32 0xEEF10A10#32 = none ∧
  decodeWord .a32 0xEEF80A11#32 = none ∧ decodeWord .a32 0xE1A00000#32 = none

/-! ### The step -/

/-- With no event pending, a step is the instruction at the pc: where the program text there holds a well-formed
instruction of the current instruction set (its bytes in the order of assumption 9), the step is exec of it and nothing is
added; a fetch that gives none is refused by its own name, with `P_HAVE_FP` false as well, where R7 names `no_fp`: the order
of those two refusals is the model's choice (assumption 22). (Where an event is pending it comes first:
`StepTakesOldestEventFirst`.) -/
def Obligations.StepRunsDecodedInstruction : Prop :=
  ∀ s : State, s.events = [] →
    (∀ i : Instr, i.wf = true → s.env.iset = i.set → Memory.readBytes s.text s.pc 4 = encode i → step s = exec i s) ∧
    (∀ i : Instr, s.fetch = .ok i → step s = exec i s) ∧
    (∀ r : Refusal, s.fetch = .error r → step s = .refused r)

/-- The model's choice (assumption 13): the enclosing machine's oldest pending event is the next step. -/
def Obligations.StepTakesOldestEventFirst : Prop :=
  ∀ (s : State) (ev : Event) (rest : List Event), s.events = ev :: rest → step s = stepEvent ev { s with events := rest }

/-- The model's choice (assumption 13): where the queue says that an instruction executes before the next event, the step
is exec of the fetched instruction with the event done; a fetch that gives none is refused by its own name (assumption 22). -/
def Obligations.ScheduledInstructionRuns : Prop :=
  ∀ (s : State) (rest : List Event), s.events = .instruction :: rest →
    (∀ i : Instr, s.fetch = .ok i → step s = exec i { s with events := rest }) ∧
    (∀ r : Refusal, s.fetch = .error r → step s = .refused r)

/-- R112 and D18: four bytes at the pc that are no row of the opcode table, put together in the order of assumption 9, are
refused `notInScope` by the step. That this holds with `P_HAVE_FP` false too, where R7 names `no_fp`, is the model's choice
(assumption 22): the spec does not order R112 and R7. -/
def Obligations.OtherWordsRefused : Prop :=
  ∀ (s : State) (b0 b1 b2 b3 : Byte), s.events = [] → Memory.readBytes s.text s.pc 4 = [b0, b1, b2, b3] →
    decodeWord s.env.iset (assemble s.env.iset b0 b1 b2 b3) = none → step s = .refused .notInScope

/-! ### The access check -/

/-- R122: the access check is the listing, arm by arm in the order written, `NSdeny` written out, for every environment. -/
def Obligations.AccessCheckFollowsListing : Prop :=
  ∀ e : Env, accessCheck e =
    if e.el = .el0 then .undefined
    else if e.el = .el1 then
      if e.el1AArch32 = true ∧
          ((e.el3AArch32 = true ∧ e.scrNs = true ∧ e.nsacrCp10 = false) ∨ e.cpacrCp10 = 0b00#2) then .undefined
      else if e.el2Enabled = true ∧ e.el2AArch32 = false ∧ e.hcrEl2E2h ≠ true ∧ e.cptrEl2Tfp = true then
        .trapA64 .el2 0x07
      else if e.el2Enabled = true ∧ e.el2AArch32 = false ∧ e.hcrEl2E2h = true ∧
          (e.cptrEl2Fpen = 0b00#2 ∨ e.cptrEl2Fpen = 0b10#2) then .trapA64 .el2 0x07
      else if e.el2Enabled = true ∧ e.el2AArch32 = true ∧
          ((e.el3AArch32 = true ∧ e.scrNs = true ∧ e.nsacrCp10 = false) ∨ e.hcptrTcp10 = true) then .trapHyp 0x08
      else if e.el2Enabled = true ∧ e.el2AArch32 = false ∧ e.hcrEl2Tid3 = true then .trapA64 .el2 0x08
      else if e.el2Enabled = true ∧ e.el2AArch32 = true ∧ e.hcrTid3 = true then .trapHyp 0x08
      else .allow
    else if e.el = .el2 then
      if e.hcrEl2E2h = false ∧ e.cptrEl2Tfp = true then .trapA64 .el2 0x07
      else if e.hcrEl2E2h = true ∧ (e.cptrEl2Fpen = 0b00#2 ∨ e.cptrEl2Fpen = 0b10#2) then .trapA64 .el2 0x07
      else if e.el2Enabled = true ∧ e.el2AArch32 = true ∧
          ((e.el3AArch32 = true ∧ e.scrNs = true ∧ e.nsacrCp10 = false) ∨ e.hcptrTcp10 = true) then .trapHyp 0x00
      else .allow
    else if e.cpacrCp10 = 0b00#2 then .undefined
    else .allow

/-- R143: each code belongs to the routine and the arms the table gives it and to no other, and an admitted access of any
of the four forms whose condition holds ends with exactly that outcome. -/
def Obligations.OutcomeCodesAndArms : Prop :=
  (∀ e : Env,
    (accessCheck e = .trapA64 .el2 0x07 ↔
      accessArm e = .e1p2 ∨ accessArm e = .e1p3 ∨ accessArm e = .e2p1 ∨ accessArm e = .e2p2) ∧
    (accessCheck e = .trapA64 .el2 0x08 ↔ accessArm e = .e1p5) ∧
    (accessCheck e = .trapHyp 0x08 ↔ accessArm e = .e1p4 ∨ accessArm e = .e1p6) ∧
    (accessCheck e = .trapHyp 0x00 ↔ accessArm e = .e2p3) ∧
    (accessCheck e = .undefined ↔ accessArm e = .e0p1 ∨ accessArm e = .e1p1 ∨ accessArm e = .e3p1) ∧
    (accessCheck e = .allow ∨ accessCheck e = .undefined ∨ accessCheck e = .trapA64 .el2 0x07 ∨
      accessCheck e = .trapA64 .el2 0x08 ∨ accessCheck e = .trapHyp 0x08 ∨ accessCheck e = .trapHyp 0x00)) ∧
  (∀ (i : Instr) (s : State), Admitted i s → condPassed i s = true →
    (accessCheck s.env = .undefined → exec i s = .fault .undefined) ∧
    (∀ target code, accessCheck s.env = .trapA64 target code → exec i s = .fault (.trapA64 target code)) ∧
    (∀ code, accessCheck s.env = .trapHyp code → exec i s = .fault (.trapHyp code)))

/-- R129, EL0: an admitted FPEXC access at EL0 whose condition holds is `Undefined`, whatever the other inputs and
whatever FPEXC holds. -/
def Obligations.El0AccessUndefined : Prop :=
  ∀ (i : Instr) (s : State), Admitted i s → condPassed i s = true → s.env.el = .el0 → exec i s = .fault .undefined

/-- R128: at EL1 using AArch32, the seven rows of the derived table decide the check. -/
def Obligations.El1Table : Prop :=
  ∀ e : Env, e.el = .el1 → e.el1AArch32 = true → accessCheck e =
    if nsDeny e = true ∨ e.cpacrCp10 = 0b00#2 then .undefined
    else if e.el2Enabled = false then .allow
    else if e.el2AArch32 = false then
      if e.hcrEl2E2h = false ∧ e.cptrEl2Tfp = true then .trapA64 .el2 0x07
      else if e.hcrEl2E2h = true ∧ (e.cptrEl2Fpen = 0b00#2 ∨ e.cptrEl2Fpen = 0b10#2) then .trapA64 .el2 0x07
      else if e.hcrEl2Tid3 = true then .trapA64 .el2 0x08
      else .allow
    else if e.hcptrTcp10 = true then .trapHyp 0x08
    else if e.hcrTid3 = true then .trapHyp 0x08
    else .allow

/-- R129, EL2 and EL3: at EL2 the TID3 controls and CPACR decide nothing; at EL3 nothing but CPACR.cp10 does. Stated as
what two environments that agree on the inputs named must share. -/
def Obligations.HigherLevelsReadFewerInputs : Prop :=
  (∀ (e : Env) (a b : Bool) (c : BitVec 2), e.el = .el2 →
    accessCheck { e with hcrEl2Tid3 := a, hcrTid3 := b, cpacrCp10 := c } = accessCheck e) ∧
  (∀ e e' : Env, e.el = .el3 → e'.el = .el3 → e.cpacrCp10 = e'.cpacrCp10 → accessCheck e = accessCheck e') ∧
  (∀ e : Env, e.el = .el3 → (accessCheck e = .allow ↔ e.cpacrCp10 ≠ 0b00#2)) ∧
  (∀ e : Env, e.el = .el2 → e.el2Enabled = false → e.cptrEl2Tfp = false → e.hcrEl2E2h = false → accessCheck e = .allow)

/-- R125: the check, and so whether an access completes or how it stops, does not depend on FPEXC: in particular EN = 0
never keeps software from setting EN again. -/
def Obligations.FpexcNeverGuardsItself : Prop :=
  ∀ (i : Instr) (s : State) (f : Fpexc),
    (∀ r : Fault, exec i s = .fault r ↔ exec i { s with fpexc := f } = .fault r) ∧
    (∀ r : Refusal, exec i s = .refused r ↔ exec i { s with fpexc := f } = .refused r) ∧
    ((∃ s', exec i s = .next s') ↔ ∃ s', exec i { s with fpexc := f } = .next s')

/-! ### The four instructions -/

/-- R123, form A1: a permitted VMRS writes `R[t]` with what FPEXC reads as (R52) and advances the pc by 4; FPEXC, every
other register and everything else keeps its value. That the value goes to `R[t]` is the spec's general knowledge (G16). -/
def Obligations.VmrsA1Completes : Prop :=
  ∀ (s : State) (cond : BitVec 4) (c : Cond) (t : RegNum), s.params.haveFp = true → t ≠ 15#4 →
    condOfBits cond = some c → condHolds c s.env.flags = true → accessCheck s.env = .allow →
    ∃ s', exec (.vmrsA1 cond t) s = .next s' ∧ s'.readReg t = fpexcRead s.params s.fpexc s.drawn ∧ s'.pc = s.pc + 4 ∧
      s'.fpexc = s.fpexc ∧ s'.staleEn = s.staleEn ∧ s'.draws = s.draws + 32 ∧ SameRegsExcept [t] s s' ∧
      s'.itConds = s.itConds ∧ SameSurroundings s s'

/-- R123, form T1: as `VmrsA1Completes`; `t` = 13 needs `P_T32_SP_OK` (R127), and the condition is the one the
IT block has for it, which it takes (R62, assumption 7). -/
def Obligations.VmrsT1Completes : Prop :=
  ∀ (s : State) (t : RegNum), s.params.haveFp = true → t ≠ 15#4 → (t = 13#4 → s.params.t32SpOk = true) →
    condHolds (s.itConds.headD .al) s.env.flags = true → accessCheck s.env = .allow →
    ∃ s', exec (.vmrsT1 t) s = .next s' ∧ s'.readReg t = fpexcRead s.params s.fpexc s.drawn ∧ s'.pc = s.pc + 4 ∧
      s'.fpexc = s.fpexc ∧ s'.staleEn = s.staleEn ∧ s'.draws = s.draws + 32 ∧ SameRegsExcept [t] s s' ∧
      s'.itConds = s.itConds.tail ∧ SameSurroundings s s'

/-- R124, form A1: a permitted VMSR writes the cells that R54 names from `R[t]` and advances the pc by 4; every register
and everything else keeps its value. -/
def Obligations.VmsrA1Completes : Prop :=
  ∀ (s : State) (cond : BitVec 4) (c : Cond) (t : RegNum), s.params.haveFp = true → t ≠ 15#4 →
    condOfBits cond = some c → condHolds c s.env.flags = true → accessCheck s.env = .allow →
    ∃ s', exec (.vmsrA1 cond t) s = .next s' ∧ WrittenWith s.params s.fpexc (s.readReg t) s'.fpexc ∧ s'.pc = s.pc + 4 ∧
      (s.params.sync = .immediate → s'.staleEn = s.staleEn) ∧ s'.draws = s.draws ∧ SameRegsExcept [] s s' ∧
      s'.itConds = s.itConds ∧ SameSurroundings s s'

/-- R124, form T1: as `VmsrA1Completes`; `t` = 13 needs `P_T32_SP_OK` (R127), and the condition is the one the
IT block has for it, which it takes (R62, assumption 7). -/
def Obligations.VmsrT1Completes : Prop :=
  ∀ (s : State) (t : RegNum), s.params.haveFp = true → t ≠ 15#4 → (t = 13#4 → s.params.t32SpOk = true) →
    condHolds (s.itConds.headD .al) s.env.flags = true → accessCheck s.env = .allow →
    ∃ s', exec (.vmsrT1 t) s = .next s' ∧ WrittenWith s.params s.fpexc (s.readReg t) s'.fpexc ∧ s'.pc = s.pc + 4 ∧
      (s.params.sync = .immediate → s'.staleEn = s.staleEn) ∧ s'.draws = s.draws ∧ SameRegsExcept [] s s' ∧
      s'.itConds = s.itConds.tail ∧ SameSurroundings s s'

/-- R126, the check allowing: an admitted instruction whose condition fails only advances the pc. -/
def Obligations.FailedConditionIsNoOp : Prop :=
  ∀ (i : Instr) (s : State), Admitted i s → condPassed i s = false → accessCheck s.env = .allow →
    ∃ s', exec i s = .next s' ∧ NoOp 0 s s' ∧ s'.itConds = condsAfter i s

/-- R126, the check not allowing: a free choice decides between the check's own outcome and a no-op (D9, assumption 8);
there is no third behaviour. -/
def Obligations.FailedConditionMayStillFault : Prop :=
  ∀ (i : Instr) (s : State) (f : Fault), Admitted i s → condPassed i s = false →
    (accessCheck s.env).fault? = some f →
    ∃ s', NoOp 1 s s' ∧ s'.itConds = condsAfter i s ∧ exec i s = if Config.draw s.draws = true then .fault f else .next s'

/-- R127 and R7: `t` = 15 is refused in every form, `t` = 13 in the T32 forms unless `P_T32_SP_OK`, and every access and
every event but `instruction` on an implementation without the functionality; each by its name, whatever the condition and
the check. The order of these refusals, and of the fetch's own before them, is the model's choice (assumption 22). -/
def Obligations.UnadmittedAccessRefused : Prop :=
  (∀ (i : Instr) (s : State), i.wf = true → s.params.haveFp = true → i.rt = 15#4 → exec i s = .refused .rtIsPc) ∧
  (∀ (i : Instr) (s : State), s.params.haveFp = true → i.set = .t32 → i.rt = 13#4 → s.params.t32SpOk = false →
    exec i s = .refused .rtIsSpT32) ∧
  (∀ (i : Instr) (s : State), i.wf = true → s.params.haveFp = false → exec i s = .refused .noFp) ∧
  (∀ (s : State) (ev : Event) (rest : List Event), s.events = ev :: rest → ev ≠ .instruction →
    s.params.haveFp = false → step s = .refused .noFp)

/-- R102 (general knowledge, G4): the sixteen values of `cond`, each with the flags it holds of; `1111` names none. -/
def Obligations.ConditionTable : Prop :=
  ∀ n z c v : Bool,
    let holds := fun b => (condOfBits b).map fun k => condHolds k ⟨n, z, c, v⟩
    holds 0b0000#4 = some z ∧ holds 0b0001#4 = some (!z) ∧ holds 0b0010#4 = some c ∧ holds 0b0011#4 = some (!c) ∧
    holds 0b0100#4 = some n ∧ holds 0b0101#4 = some (!n) ∧ holds 0b0110#4 = some v ∧ holds 0b0111#4 = some (!v) ∧
    holds 0b1000#4 = some (c && !z) ∧ holds 0b1001#4 = some (!c || z) ∧ holds 0b1010#4 = some (n == v) ∧
    holds 0b1011#4 = some (n != v) ∧ holds 0b1100#4 = some (!z && n == v) ∧ holds 0b1101#4 = some (z || n != v) ∧
    holds 0b1110#4 = some true ∧ holds 0b1111#4 = none

/-- R62: `cond_passed` is an input of each executed instruction. A T32 instruction has the first of the conditions the IT
block holds (always, where none is left), and an instruction that completes leaves the rest to the T32 instructions after
it; an A32 instruction takes none (R102, general knowledge G4; the list is assumption 7). -/
def Obligations.EachInstructionTakesItsCondition : Prop :=
  ∀ (i : Instr) (s : State),
    (i.set = .t32 → condPassed i s = condHolds (s.itConds.headD .al) s.env.flags) ∧
    (∀ s', exec i s = .next s' →
      (i.set = .a32 → s'.itConds = s.itConds) ∧ (i.set = .t32 → s'.itConds = s.itConds.tail) ∧
      ∀ j : Instr, j.set = .t32 → condPassed j s' = condHolds ((condsAfter i s).headD .al) s.env.flags)

/-! ### The fields of the register -/

/-- R36, EX: bit 31 reads 0, a write ignores it and there is no storage for it, and it reads 0 after a reset. -/
def Obligations.ExFieldRule : Prop :=
  ∀ (p : Params) (f : Fpexc) (d : Nat → Bool) (w : Word),
    (fpexcRead p f d).getLsbD 31 = false ∧
    fpexcWrite p f (w ^^^ 0x80000000#32) = fpexcWrite p f w ∧
    (fpexcRead p (fpexcReset p) d).getLsbD 31 = false

/-- R37, EN: a read returns the cell in bit 30 (a draw if it is `U`), a write sets it from bit 30, a recording never
changes it, and it resets to 0 under `P_RESET_AARCH32` and to `U` otherwise. With EN 0 an access to the FPSCR or to any SIMD
and floating-point register is `Undefined` at every Exception level, but where the Note of R152 makes EN as if 1; with EN
1 it is permitted at every level. (No unsynchronised write is pending, R178, and no other control stops the access, R153.) -/
def Obligations.EnFieldRule : Prop :=
  (∀ (p : Params) (f : Fpexc) (d : Nat → Bool), (fpexcRead p f d).getLsbD 30 = f.en.known (d 30)) ∧
  (∀ (p : Params) (f : Fpexc) (w : Word), (fpexcWrite p f w).en = Cell.ofBool (w.getLsbD 30)) ∧
  (∀ (p : Params) (f f' : Fpexc) (cause : Cause), fpexcRecord p f cause = some f' → f'.en = f.en) ∧
  (∀ p : Params, (fpexcReset p).en = if p.resetAArch32 = true then .zero else .u) ∧
  (∀ (s : State) (reg : FpReg) (rest : List Event), s.params.haveFp = true → s.staleEn = none →
    s.events = .fpAccess reg false :: rest →
    (s.fpexc.en = .zero →
      ¬ (s.env.el = .el0 ∧ (s.env.el1AArch32 = false ∨
        (s.env.el2AArch32 = false ∧ s.env.el2Enabled = true ∧ s.env.hcrEl2Tge = true ∧
          (s.env.hcrEl2Rw = true ∨ s.params.el0Tge = .asIfOne)))) → step s = .fault .undefined) ∧
    (s.fpexc.en = .one → ∃ s', step s = .next s'))

/-- R38, DEX: outside CFG_A it is a cell that reads return and writes set from bit 29, that both defined causes set to 1,
that an unallocated instruction leaves 0 where it was 0 (TFV and the flags then UNKNOWN if they are cells), and that resets
to `U`; in CFG_A it is a reserved bit (D5); and TFV is valid exactly when the same read's DEX is 1 (D4). -/
def Obligations.DexFieldRule : Prop :=
  ∀ (p : Params) (f : Fpexc) (d : Nat → Bool) (w : Word),
    (cfgName p ≠ .cfgA → (fpexcRead p f d).getLsbD 29 = f.dex.known (d 29) ∧
      (fpexcWrite p f w).dex = Cell.ofBool (w.getLsbD 29) ∧ (fpexcReset p).dex = .u) ∧
    (cfgName p = .cfgA → (p.res = .hardwired → (fpexcRead p f d).getLsbD 29 = false ∧ fpexcWrite p f w =
        fpexcWrite p f (w ^^^ 0x20000000#32)) ∧
      (p.res = .stored → (fpexcRead p f d).getLsbD 29 = (resvCell f.resv 29).known (d 29) ∧
        (fpexcRead p (fpexcWrite p f w) d).getLsbD 29 = w.getLsbD 29)) ∧
    (∀ (op : ShortVectorOp) (f' : Fpexc), fpexcRecord p f (.strideLen op) = some f' → f'.dex = .one) ∧
    (∀ (h z : Bool) (t : PerException Bool) (f' : Fpexc), fpexcRecord p f (.trappedFp h z t) = some f' → f'.dex = .one) ∧
    (∀ f' : Fpexc, fpexcRecord p f .unallocated = some f' → (f.dex = .zero → f'.dex = .zero) ∧
      (cfgName p = .cfgD → f'.tfv = .u) ∧ (p.trapFpexc = true → ∀ x, f'.flags.get x = .u)) ∧
    (cfgName p = .cfgD → (fpexcRead p f d).getLsbD 26 =
      if (fpexcRead p f d).getLsbD 29 = true then f.tfv.known (d 26) else d 26)

/-- R41, TFV: 0 in CFG_A and CFG_B and 1 in CFG_C whatever is stored; in CFG_D the cell when the same read's DEX is 1 and
a draw when it is 0; no write changes it in any configuration, and bit 26 of a written word is ignored; the Stride/Len
cause leaves it 0 and the flags UNKNOWN if they are cells, the trapped cause leaves it 1 and sets the flag of every trapped
exception; in CFG_D it resets to `U`, elsewhere the fixed value is read after reset. -/
def Obligations.TfvFieldRule : Prop :=
  ∀ (p : Params) (f : Fpexc) (d : Nat → Bool) (w : Word),
    (cfgName p = .cfgA ∨ cfgName p = .cfgB → (fpexcRead p f d).getLsbD 26 = false) ∧
    (cfgName p = .cfgC → (fpexcRead p f d).getLsbD 26 = true) ∧
    (cfgName p = .cfgD → (fpexcRead p f d).getLsbD 26 =
      if (fpexcRead p f d).getLsbD 29 = true then f.tfv.known (d 26) else d 26) ∧
    (fpexcWrite p f w).tfv = f.tfv ∧ fpexcWrite p f (w ^^^ 0x04000000#32) = fpexcWrite p f w ∧
    (cfgName p = .cfgD → (fpexcReset p).tfv = .u ∧
      (∀ (op : ShortVectorOp) (f' : Fpexc), fpexcRecord p f (.strideLen op) = some f' → f'.tfv = .zero) ∧
      (∀ (h z : Bool) (t : PerException Bool) (f' : Fpexc), fpexcRecord p f (.trappedFp h z t) = some f' → f'.tfv = .one)) ∧
    (p.trapFpexc = true → ∀ (op : ShortVectorOp) (f' : Fpexc), fpexcRecord p f (.strideLen op) = some f' →
      ∀ x, f'.flags.get x = .u) ∧
    (∀ (h z : Bool) (t : PerException Bool) (f' : Fpexc), fpexcRecord p f (.trappedFp h z t) = some f' →
      ∀ x, t.get x = true → f'.flags.get x = .one) ∧
    (cfgName p ≠ .cfgD → (fpexcRead p (fpexcReset p) d).getLsbD 26 = decide (cfgName p = .cfgC))

/-- R44, R46 to R50, the six flags: without trapping each reads 0 and ignores writes; with trapping a write sets its cell
from its bit, a read returns the cell when bits 29 and 26 of the read are both 1 and a draw otherwise, a recording of a
trapped exception sets it, and it resets to `U`. The conditions under which Input Denormal and Underflow can be recorded:
Input Denormal only with FPSCR.FZ 1 and never for a value flushed by FPSCR.FZ16; Underflow only with FZ16 0 on
half-precision data processing and only with FZ 0 otherwise; every recorded exception was enabled in the FPSCR. -/
def Obligations.FlagFieldsRule : Prop :=
  ∀ (p : Params) (f : Fpexc) (d : Nat → Bool) (w : Word) (x : FpException),
    (p.trapFpexc = false → (fpexcRead p f d).getLsbD (flagPos x) = false ∧
      (fpexcWrite p f w).flags.get x = f.flags.get x) ∧
    (p.trapFpexc = true → (fpexcWrite p f w).flags.get x = Cell.ofBool (w.getLsbD (flagPos x)) ∧
      (fpexcRead p f d).getLsbD (flagPos x) =
        (if (fpexcRead p f d).getLsbD 29 = true ∧ (fpexcRead p f d).getLsbD 26 = true then
          (f.flags.get x).known (d (flagPos x)) else d (flagPos x)) ∧
      (fpexcReset p).flags.get x = .u ∧
      (∀ (h z : Bool) (t : PerException Bool), t.get x = true →
        ∃ f', fpexcRecord p f (.trappedFp h z t) = some f' ∧ f'.flags.get x = .one)) ∧
    (∀ (e : Env) (h z : Bool) (t : PerException Bool), causeAdmissible e (.trappedFp h z t) = true →
      (t.get x = true → e.fpscrEnables.get x = true) ∧
      (t.inputDenormal = true → e.fpscrFz = true ∧ z = false) ∧
      (t.underflow = true → if h = true then e.fpscrFz16 = false else e.fpscrFz = false))

/-- R53 (general knowledge and D5): a reserved position reads its fixed value (1 for bits 10:8, 0 elsewhere) when the
bits are hardwired; when they are stored, a read returns its cell, and what was written is read back. -/
def Obligations.ReservedFieldsRule : Prop :=
  ∀ (p : Params) (f : Fpexc) (d : Nat → Bool) (w : Word) (n : Nat), isReserved p n = true →
    (p.res = .hardwired → (fpexcRead p f d).getLsbD n = decide (8 ≤ n ∧ n ≤ 10) ∧ (fpexcWrite p f w).resv = f.resv) ∧
    (p.res = .stored → (fpexcRead p f d).getLsbD n = (resvCell f.resv n).known (d n) ∧
      (fpexcRead p (fpexcWrite p f w) d).getLsbD n = w.getLsbD n)

/-! ### Reads, writes and reset of the whole register -/

/-- R52 and R54 together, as 95_test_vectors.md section 2.2 tabulates them for some words, for every word: what a read
returns after a write, in each configuration; the bits outside the mask are determined, the others are draws. -/
def Obligations.ReadAfterWrite : Prop :=
  ∀ (p : Params) (f : Fpexc) (d : Nat → Bool) (w : Word),
    let r := fpexcRead p (fpexcWrite p f w) d
    (p.res = .hardwired →
      (cfgName p = .cfgA → r = (w &&& 0x40000000#32) ||| 0x00000700#32) ∧
      (cfgName p = .cfgB → r = (w &&& 0x60000000#32) ||| 0x00000700#32) ∧
      (cfgName p = .cfgC → r &&& ~~~0x0000009F#32 = (w &&& 0x60000000#32) ||| 0x04000700#32 ∧
        (w.getLsbD 29 = true → r = (w &&& 0x6000009F#32) ||| 0x04000700#32)) ∧
      (cfgName p = .cfgD → r &&& ~~~0x0400009F#32 = (w &&& 0x60000000#32) ||| 0x00000700#32 ∧
        (w.getLsbD 29 = true → f.tfv = .one → r = (w &&& 0x6000009F#32) ||| 0x04000700#32))) ∧
    (p.res = .stored →
      (cfgName p = .cfgA ∨ cfgName p = .cfgB → r = w &&& 0x7BFFFF60#32) ∧
      (cfgName p = .cfgC → r &&& ~~~0x0000009F#32 = (w &&& 0x7BFFFF60#32) ||| 0x04000000#32 ∧
        (w.getLsbD 29 = true → r = (w &&& 0x7BFFFFFF#32) ||| 0x04000000#32)) ∧
      (cfgName p = .cfgD → r &&& ~~~0x0400009F#32 = w &&& 0x7BFFFF60#32 ∧
        (w.getLsbD 29 = true → f.tfv = .one → r = (w &&& 0x7BFFFFFF#32) ||| 0x04000000#32)))

/-- Vector I12 for every state: where every cell is known and the status bits are valid (or do not exist), writing back
the value read leaves FPEXC as it was. -/
def Obligations.WriteBackPreserves : Prop :=
  ∀ (p : Params) (f : Fpexc) (d : Nat → Bool), fpexcWf p f = true → f.en ≠ .u → f.dex ≠ .u → f.resv.unknown = 0 →
    (∀ x, f.flags.get x ≠ .u) →
    (p.trapFpexc = true → f.dex = .one ∧ (cfgName p = .cfgD → f.tfv = .one)) →
    fpexcWrite p f (fpexcRead p f d) = f

/-- R170 and R34: after a reset EN is 0 if the PE resets into AArch32 and `U` otherwise, every other cell the
configuration has is `U`, and each fixed-value bit reads its fixed value. (The registers, the pc and the inputs have no
reset value, R172: the model leaves them free, assumption 14, and nothing is stated of them.) -/
def Obligations.ResetStep : Prop :=
  ∀ (s : State) (rest : List Event), s.params.haveFp = true → s.events = .reset :: rest →
    ∃ s', step s = .next s' ∧
      s'.fpexc.en = (if s.params.resetAArch32 = true then .zero else .u) ∧
      (cfgName s.params ≠ .cfgA → s'.fpexc.dex = .u) ∧ (cfgName s.params = .cfgD → s'.fpexc.tfv = .u) ∧
      (s.params.trapFpexc = true → ∀ x, s'.fpexc.flags.get x = .u) ∧
      (s.params.res = .stored → ∀ n, isReserved s.params n = true → resvCell s'.fpexc.resv n = .u) ∧
      (∀ d : Nat → Bool, (fpexcRead s.params s'.fpexc d).getLsbD 31 = false ∧
        (cfgName s.params ≠ .cfgD → (fpexcRead s.params s'.fpexc d).getLsbD 26 = decide (cfgName s.params = .cfgC)) ∧
        (s.params.trapFpexc = false → ∀ x, (fpexcRead s.params s'.fpexc d).getLsbD (flagPos x) = false) ∧
        (s.params.res = .hardwired → ∀ n, isReserved s.params n = true →
          (fpexcRead s.params s'.fpexc d).getLsbD n = decide (8 ≤ n ∧ n ≤ 10)))

/-- 95_test_vectors.md section 2.1: what FPEXC reads as after a reset, in all sixteen configurations; a bit of the mask
is a draw and every other bit is determined. -/
def Obligations.ReadAfterReset : Prop :=
  ∀ (p : Params) (d : Nat → Bool),
    let r := fpexcRead p (fpexcReset p) d
    let en := if p.resetAArch32 = true then 0#32 else 0x40000000#32
    (p.res = .hardwired →
      (cfgName p = .cfgA → r &&& ~~~en = 0x00000700#32) ∧
      (cfgName p = .cfgB → r &&& ~~~(en ||| 0x20000000#32) = 0x00000700#32) ∧
      (cfgName p = .cfgC → r &&& ~~~(en ||| 0x2000009F#32) = 0x04000700#32) ∧
      (cfgName p = .cfgD → r &&& ~~~(en ||| 0x2400009F#32) = 0x00000700#32)) ∧
    (p.res = .stored →
      (cfgName p = .cfgA ∨ cfgName p = .cfgB → r &&& ~~~(en ||| 0x3BFFFF60#32) = 0#32) ∧
      (cfgName p = .cfgC → r &&& ~~~(en ||| 0x3BFFFFFF#32) = 0x04000000#32) ∧
      (cfgName p = .cfgD → r &&& ~~~(en ||| 0x3FFFFFFF#32) = 0#32))

/-- The state after reset: EN is 0, as R37 says of a machine that resets into AArch32, and every other cell of CFG_D is
`U`. Which configuration `State.reset` is a machine of is the model's choice (assumption 1). -/
def Obligations.ResetStateCells : Prop :=
  State.reset.params.resetAArch32 = true ∧ cfgName State.reset.params = .cfgD ∧ State.reset.fpexc.en = .zero ∧
    State.reset.fpexc.dex = .u ∧ State.reset.fpexc.tfv = .u ∧ (∀ x, State.reset.fpexc.flags.get x = .u) ∧
    State.reset.fpexc = fpexcReset State.reset.params

/-! ### Recording -/

/-- R156, the DEX = 0 row (D21): an unallocated instruction, or any other synchronous exception of the encoding space,
leaves DEX 0 where it was 0 and `U` otherwise, TFV `U` in CFG_D and the flags `U` with trapping, and changes nothing else. -/
def Obligations.RecordUndefinedCause : Prop :=
  ∀ (s : State) (cause : Cause) (rest : List Event), s.params.haveFp = true →
    (cause = .unallocated ∨ cause = .otherSync) → s.events = .syncException true cause :: rest →
    ∃ s', step s = .next s' ∧ RecordedOnly rest s s' ∧
      (cfgName s.params = .cfgA → s'.fpexc.dex = s.fpexc.dex) ∧
      (cfgName s.params ≠ .cfgA → (s.fpexc.dex = .zero → s'.fpexc.dex = .zero) ∧
        (s.fpexc.dex ≠ .zero → s'.fpexc.dex = .u)) ∧
      (cfgName s.params = .cfgD → s'.fpexc.tfv = .u) ∧ (cfgName s.params ≠ .cfgD → s'.fpexc.tfv = s.fpexc.tfv) ∧
      (s.params.trapFpexc = true → ∀ x, s'.fpexc.flags.get x = .u) ∧
      (s.params.trapFpexc = false → s'.fpexc.flags = s.fpexc.flags)

/-- R156 and R157, the Stride/Len cause (D21): where the fields are not RAZ and one of them is non-zero, DEX becomes 1,
TFV 0 in CFG_D and the flags `U` with trapping, and nothing else changes; where they are RAZ the cause is refused. -/
def Obligations.RecordStrideLenCause : Prop :=
  ∀ (s : State) (op : ShortVectorOp) (rest : List Event), s.params.haveFp = true →
    s.events = .syncException true (.strideLen op) :: rest →
    (s.params.strideLenRaz = true → step s = .refused .recordCannotOccur) ∧
    (s.params.strideLenRaz = false → (s.env.fpscrStride ≠ 0 ∨ s.env.fpscrLen ≠ 0) →
      ∃ s', step s = .next s' ∧ RecordedOnly rest s s' ∧ s'.fpexc.dex = .one ∧
        (cfgName s.params = .cfgD → s'.fpexc.tfv = .zero) ∧ (cfgName s.params ≠ .cfgD → s'.fpexc.tfv = s.fpexc.tfv) ∧
        (s.params.trapFpexc = true → ∀ x, s'.fpexc.flags.get x = .u) ∧
        (s.params.trapFpexc = false → s'.fpexc.flags = s.fpexc.flags)) ∧
    (s.params.strideLenRaz = false → s.env.fpscrStride = 0 → s.env.fpscrLen = 0 →
      step s = .refused .recordInadmissible)

/-- R156, R158 and R159, trapped exceptions (D15, D21): with trapping and an admissible set, DEX becomes 1, TFV 1 in
CFG_D, each member's flag 1, and every other flag 0 where it was 0 and `U` otherwise; without trapping the cause is refused. -/
def Obligations.RecordTrappedCause : Prop :=
  ∀ (s : State) (half z : Bool) (t : PerException Bool) (rest : List Event), s.params.haveFp = true →
    s.events = .syncException true (.trappedFp half z t) :: rest →
    (s.params.trapFpexc = false → step s = .refused .recordCannotOccur) ∧
    (s.params.trapFpexc = true → (∃ x, t.get x = true) → (∀ x, t.get x = true → s.env.fpscrEnables.get x = true) →
      (t.inputDenormal = true → s.env.fpscrFz = true ∧ z = false) →
      (t.underflow = true → if half = true then s.env.fpscrFz16 = false else s.env.fpscrFz = false) →
      ∃ s', step s = .next s' ∧ RecordedOnly rest s s' ∧ s'.fpexc.dex = .one ∧
        (cfgName s.params = .cfgD → s'.fpexc.tfv = .one) ∧ (cfgName s.params ≠ .cfgD → s'.fpexc.tfv = s.fpexc.tfv) ∧
        FlagsRecorded t s.fpexc.flags s'.fpexc.flags)

/-- R158's consequence: for an instruction that is not half-precision data processing, Input Denormal and Underflow are
never recorded together. -/
def Obligations.DenormalExcludesUnderflow : Prop :=
  ∀ (s s' : State) (z : Bool) (t : PerException Bool) (rest : List Event),
    s.events = .syncException true (.trappedFp false z t) :: rest → step s = .next s' →
    ¬ (t.inputDenormal = true ∧ t.underflow = true)

/-- R160: what a handler reads after each cause when DEX and the flags were 0 and the reserved bits are hardwired. -/
def Obligations.HandlerReadsTheCause : Prop :=
  ∀ (p : Params) (f f' : Fpexc) (cause : Cause) (d : Nat → Bool), p.res = .hardwired → f.dex = .zero →
    (∀ x, f.flags.get x = .zero) → fpexcRecord p f cause = some f' →
    let r := fpexcRead p f' d
    ((cause = .unallocated ∨ cause = .otherSync) → r.getLsbD 29 = false ∧
      (cfgName p = .cfgC → r.getLsbD 26 = true) ∧
      (cfgName p = .cfgA ∨ cfgName p = .cfgB → r.getLsbD 26 = false ∧ ∀ x, r.getLsbD (flagPos x) = false)) ∧
    ((∃ op, cause = .strideLen op) → r.getLsbD 29 = true ∧ r.getLsbD 26 = false ∧
      (cfgName p = .cfgB → ∀ x, r.getLsbD (flagPos x) = false)) ∧
    (∀ h z t, cause = .trappedFp h z t → r.getLsbD 29 = true ∧ r.getLsbD 26 = true ∧
      ∀ x, r.getLsbD (flagPos x) = t.get x)

/-- R156: an exception of an instruction outside the CP10/CP11 encoding space records nothing, and in CFG_A no
recording changes FPEXC. -/
def Obligations.NothingRecorded : Prop :=
  (∀ (s : State) (cause : Cause) (rest : List Event), s.params.haveFp = true →
    s.events = .syncException false cause :: rest → step s = .next { s with events := rest }) ∧
  (∀ (s s' : State) (cp : Bool) (cause : Cause) (rest : List Event), cfgName s.params = .cfgA →
    s.events = .syncException cp cause :: rest → step s = .next s' → s'.fpexc = s.fpexc)

/-! ### FPEXC.EN, the global enable -/

/-- R152: the effective value of EN is 1 where the Note says so, and the register's own bit in every other case; the
stored bit that a read returns is not changed by the Note. -/
def Obligations.EffectiveEnNote : Prop :=
  ∀ (p : Params) (e : Env) (f : Fpexc) (d : Nat → Bool),
    (effectiveEn p e f.en (d 30) = true ↔
      (e.el = .el0 ∧ (e.el1AArch32 = false ∨
        (e.el2AArch32 = false ∧ e.el2Enabled = true ∧ e.hcrEl2Tge = true ∧
          (e.hcrEl2Rw = true ∨ p.el0Tge = .asIfOne)))) ∨
      f.en.known (d 30) = true) ∧
    (fpexcRead p f d).getLsbD 30 = f.en.known (d 30)

/-- With the effective EN 0, an access to the FPSCR or to any of Q0-Q15, D0-D31, S0-S31 is `Undefined` at every Exception
level; with it 1, and no other control stopping the access, it is not `Undefined` and goes on (R150). Where another control
stops it (`other`), that EN = 0 still gives `Undefined` and that EN = 1 gives no `Undefined` is the model's choice
(assumption 16): R150 says that EN permits and does not guarantee, and R153 and R154 leave the other controls open. `enSeen`
is `S.EN` itself but for a write not yet synchronised (R178). -/
def Obligations.FpAccessNeedsEn : Prop :=
  ∀ (s : State) (reg : FpReg) (other : Bool) (rest : List Event), s.params.haveFp = true →
    s.events = .fpAccess reg other :: rest →
    (effectiveEn s.params s.env (enSeen s) (s.drawn 1) = false → step s = .fault .undefined) ∧
    (effectiveEn s.params s.env (enSeen s) (s.drawn 1) = true → step s ≠ .fault .undefined ∧
      (other = false → ∃ s', step s = .next s')) ∧
    (s.staleEn = none → enSeen s = s.fpexc.en)

/-- The model's choice (assumption 16): an access that EN permits leaves FPEXC, the registers, the pc and everything else
of the model alone; one that another control stops is refused, since the spec has no rule for that control (R153). -/
def Obligations.FpAccessLeavesStateAlone : Prop :=
  ∀ (s : State) (reg : FpReg) (rest : List Event), s.params.haveFp = true →
    effectiveEn s.params s.env (enSeen s) (s.drawn 1) = true →
    (s.events = .fpAccess reg true :: rest → step s = .refused .otherControl) ∧
    (s.events = .fpAccess reg false :: rest → ∃ s', step s = .next s' ∧ s'.fpexc = s.fpexc ∧ s'.regs = s.regs ∧
      s'.pc = s.pc ∧ s'.params = s.params ∧ s'.env = s.env ∧ s'.itConds = s.itConds ∧ s'.staleEn = s.staleEn ∧
      s'.events = rest ∧ ∀ a, Memory.read s'.text a = Memory.read s.text a)

/-- R178 with `P_SYNC` = `immediate` (D14): the floating-point access that follows a permitted VMSR above EL0 sees the EN
just written. -/
def Obligations.WriteSeenByNextAccess : Prop :=
  ∀ (s s' : State) (i : Instr) (reg : FpReg), (i = .vmsrT1 i.rt ∨ ∃ c, i = .vmsrA1 c i.rt) → s.wf = true →
    s.params.sync = .immediate → s.env.el ≠ .el0 → condPassed i s = true → exec i s = .next s' →
    (step { s' with events := [.fpAccess reg false] } = .fault .undefined ↔ (s.readReg i.rt).getLsbD 30 = false)

/-- R178 with `P_SYNC` = `needs_sync` (D14, assumption 15): after a permitted VMSR a floating-point access sees either the
EN from before it or the one it wrote, and after a context-synchronisation event only the latter. -/
def Obligations.UnsynchronisedEnIsOldOrNew : Prop :=
  ∀ (s s' : State) (i : Instr), (i = .vmsrT1 i.rt ∨ ∃ c, i = .vmsrA1 c i.rt) → s.params.sync = .needsSync →
    s.staleEn = none → condPassed i s = true → exec i s = .next s' →
    (enSeen s' = s.fpexc.en ∨ enSeen s' = Cell.ofBool ((s.readReg i.rt).getLsbD 30)) ∧
    s'.staleEn = some s.fpexc.en ∧
    (∀ (ev : State) (rest : List Event), step { s' with events := .contextSync :: rest } = .next ev →
      enSeen ev = Cell.ofBool ((s.readReg i.rt).getLsbD 30) ∧ ev.fpexc = s'.fpexc ∧ ev.regs = s'.regs ∧ ev.pc = s'.pc)

/-! ### Rules of the whole machine -/

/-- The invariant holds of the state after reset. -/
def Obligations.ResetStateWf : Prop := State.reset.wf = true

/-- Every step keeps the invariant: canonical program text, no cell that the configuration lacks (R33), no
unsynchronised EN where writes are immediate (R178). -/
def Obligations.StepKeepsWf : Prop :=
  ∀ s s' : State, s.wf = true → step s = .next s' → s'.wf = true

/-- R29, R62 and R66: the enclosing machine supplies new inputs between instructions; all of them but the Exception level,
which is constant within a run (D25), are the new ones, the conditions of the T32 instructions to come among them, and
nothing else changes. The event is assumption 6. -/
def Obligations.NewInputs : Prop :=
  ∀ (s : State) (e : Env) (conds : List Cond) (rest : List Event), s.params.haveFp = true →
    s.events = .inputs e conds :: rest →
    step s = .next { s with events := rest, env := { e with el := s.env.el }, itConds := conds }

/-- R66 and R148 with R88: no step changes the implementation parameters or a byte of the program text; no step but a
reset changes the Exception level (D25); and no step but a reset or the supply of new inputs changes any input, but that a
T32 instruction takes its condition (R62). -/
def Obligations.InputsAreNotWritten : Prop :=
  ∀ s s' : State, step s = .next s' →
    s'.params = s.params ∧ (∀ a, Memory.read s'.text a = Memory.read s.text a) ∧
    ((∀ rest, s.events ≠ .reset :: rest) → s'.env.el = s.env.el) ∧
    ((∀ rest, s.events ≠ .reset :: rest) → (∀ e conds rest, s.events ≠ .inputs e conds :: rest) →
      s'.env = s.env ∧ (s'.itConds = s.itConds ∨ s'.itConds = s.itConds.tail))

/-- R148 and program P3: at EL0 no instruction changes FPEXC or a general register: the step faults `Undefined`, is
refused, or is a condition-failed no-op; there is no fourth outcome. An instruction executes where no event is pending or
where the queue says so (assumption 13). -/
def Obligations.El0CannotChangeFpexc : Prop :=
  ∀ s : State, s.env.el = .el0 → (s.events = [] ∨ ∃ rest, s.events = .instruction :: rest) →
    step s = .fault .undefined ∨ (∃ r, step s = .refused r) ∨
      ∃ s', step s = .next s' ∧ NoOp 1 { s with events := s.events.tail } s' ∧
        (s'.itConds = s.itConds ∨ s'.itConds = s.itConds.tail)

/-- R35 and R123: no instruction but a VMSR whose condition holds and whose check allows it changes a cell of FPEXC. -/
def Obligations.OnlyPermittedVmsrWritesFpexc : Prop :=
  ∀ (i : Instr) (s s' : State), exec i s = .next s' → s'.fpexc ≠ s.fpexc →
    accessCheck s.env = .allow ∧ condPassed i s = true ∧ Admitted i s ∧
      (i = .vmsrT1 i.rt ∨ ∃ c, i = .vmsrA1 c i.rt)

/-- R23 and D3: every draw is fresh: no step moves the counter of draws back, and a read of FPEXC moves it past the
thirty-two draws it may have taken (assumption 2). -/
def Obligations.DrawsAreFresh : Prop :=
  (∀ s s' : State, step s = .next s' → s.draws ≤ s'.draws) ∧
  (∀ (i : Instr) (s s' : State), exec i s = .next s' → condPassed i s = true →
    (i = .vmrsT1 i.rt ∨ ∃ c, i = .vmrsA1 c i.rt) → s'.draws = s.draws + 32)
end

