-- ==== Sys2Proof/Laws/Code.lean ====
section
/-! SUPPORT. Bytes and words: laying a word out and assembling it again are inverse, in both instruction sets. -/

namespace Sys2Proof

/-- A word is the word of its bytes. -/
theorem wordOfBytes_byteOfWord (w : Word) :
    wordOfBytes (byteOfWord w 0) (byteOfWord w 1) (byteOfWord w 2) (byteOfWord w 3) = w := by
  simp only [wordOfBytes, byteOfWord]
  ext i hi
  have : i < 8 ∨ (8 ≤ i ∧ i < 16) ∨ (16 ≤ i ∧ i < 24) ∨ 24 ≤ i := by omega
  rcases this with h | h | h | h <;> simp [BitVec.getElem_setWidth, BitVec.getLsbD_extractLsb'] <;> grind

/-- The bytes of a word are the bytes it was made of. -/
theorem byteOfWord_wordOfBytes (b0 b1 b2 b3 : Byte) :
    byteOfWord (wordOfBytes b0 b1 b2 b3) 0 = b0 ∧ byteOfWord (wordOfBytes b0 b1 b2 b3) 1 = b1 ∧
      byteOfWord (wordOfBytes b0 b1 b2 b3) 2 = b2 ∧ byteOfWord (wordOfBytes b0 b1 b2 b3) 3 = b3 := by
  simp only [wordOfBytes, byteOfWord]
  refine ⟨?_, ?_, ?_, ?_⟩ <;> ext i hi <;> simp [BitVec.getLsbD_setWidth] <;> grind

/-- Assembling the four bytes of a laid out word gives the word. -/
theorem assemble_layout (set : InstrSet) (w : Word) :
    ∃ b0 b1 b2 b3, layout set w = [b0, b1, b2, b3] ∧ assemble set b0 b1 b2 b3 = w := by
  cases set <;> exact ⟨_, _, _, _, rfl, wordOfBytes_byteOfWord w⟩

/-- Laying out an assembled word gives its bytes. -/
theorem layout_assemble (set : InstrSet) (b0 b1 b2 b3 : Byte) :
    layout set (assemble set b0 b1 b2 b3) = [b0, b1, b2, b3] := by
  cases set
  · obtain ⟨h0, h1, h2, h3⟩ := byteOfWord_wordOfBytes b0 b1 b2 b3
    simp [layout, assemble, h0, h1, h2, h3]
  · obtain ⟨h0, h1, h2, h3⟩ := byteOfWord_wordOfBytes b2 b3 b0 b1
    simp [layout, assemble, h0, h1, h2, h3]

/-- The `cond` and `Rt` fields and the bits an A32 mask keeps make up the whole word. -/
theorem word_of_a32_fields {w m : Word} (h : w &&& 0x0FFF0FFF#32 = m) :
    w = ((condField w).setWidth 32 <<< 28) ||| m ||| ((rtField w).setWidth 32 <<< 12) := by
  subst h
  ext i hi
  simp only [condField, rtField]
  interval_cases i <;> simp

/-- The `Rt` field and the bits a T32 mask keeps make up the whole word. -/
theorem word_of_t32_fields {w m : Word} (h : w &&& 0xFFFF0FFF#32 = m) :
    w = m ||| ((rtField w).setWidth 32 <<< 12) := by
  subst h
  ext i hi
  simp only [rtField]
  interval_cases i <;> simp

end Sys2Proof
end

