-- ==== Sys2Proof/Laws/State.lean ====
section
/-! SUPPORT. One lemma per field per update of the state, so that no proof unfolds a record update. -/

namespace Sys2Proof.Machine

/-! ### takeDraws -/

section
variable (s : State) (n : Nat)
@[simp] theorem takeDraws_params : (s.takeDraws n).params = s.params := rfl
@[simp] theorem takeDraws_env : (s.takeDraws n).env = s.env := rfl
@[simp] theorem takeDraws_fpexc : (s.takeDraws n).fpexc = s.fpexc := rfl
@[simp] theorem takeDraws_staleEn : (s.takeDraws n).staleEn = s.staleEn := rfl
@[simp] theorem takeDraws_regs : (s.takeDraws n).regs = s.regs := rfl
@[simp] theorem takeDraws_pc : (s.takeDraws n).pc = s.pc := rfl
@[simp] theorem takeDraws_text : (s.takeDraws n).text = s.text := rfl
@[simp] theorem takeDraws_events : (s.takeDraws n).events = s.events := rfl
@[simp] theorem takeDraws_itConds : (s.takeDraws n).itConds = s.itConds := rfl
@[simp] theorem takeDraws_draws : (s.takeDraws n).draws = s.draws + n := rfl
end

/-! ### advance -/

section
variable (s : State)
@[simp] theorem advance_params : s.advance.params = s.params := rfl
@[simp] theorem advance_env : s.advance.env = s.env := rfl
@[simp] theorem advance_fpexc : s.advance.fpexc = s.fpexc := rfl
@[simp] theorem advance_staleEn : s.advance.staleEn = s.staleEn := rfl
@[simp] theorem advance_regs : s.advance.regs = s.regs := rfl
@[simp] theorem advance_pc : s.advance.pc = s.pc + 4 := rfl
@[simp] theorem advance_text : s.advance.text = s.text := rfl
@[simp] theorem advance_events : s.advance.events = s.events := rfl
@[simp] theorem advance_itConds : s.advance.itConds = s.itConds := rfl
@[simp] theorem advance_draws : s.advance.draws = s.draws := rfl
end

/-! ### condTaken -/

section
variable (s : State) (set : InstrSet)
@[simp] theorem condTaken_params : (s.condTaken set).params = s.params := by cases set <;> rfl
@[simp] theorem condTaken_env : (s.condTaken set).env = s.env := by cases set <;> rfl
@[simp] theorem condTaken_fpexc : (s.condTaken set).fpexc = s.fpexc := by cases set <;> rfl
@[simp] theorem condTaken_staleEn : (s.condTaken set).staleEn = s.staleEn := by cases set <;> rfl
@[simp] theorem condTaken_regs : (s.condTaken set).regs = s.regs := by cases set <;> rfl
@[simp] theorem condTaken_pc : (s.condTaken set).pc = s.pc := by cases set <;> rfl
@[simp] theorem condTaken_text : (s.condTaken set).text = s.text := by cases set <;> rfl
@[simp] theorem condTaken_events : (s.condTaken set).events = s.events := by cases set <;> rfl
@[simp] theorem condTaken_draws : (s.condTaken set).draws = s.draws := by cases set <;> rfl
@[simp] theorem condTaken_drawn : (s.condTaken set).drawn = s.drawn := by cases set <;> rfl
@[simp] theorem condTaken_readReg (u : RegNum) : (s.condTaken set).readReg u = s.readReg u := by cases set <;> rfl
@[simp] theorem condTaken_a32 : s.condTaken .a32 = s := rfl
@[simp] theorem condTaken_t32_itConds : (s.condTaken .t32).itConds = s.itConds.tail := rfl
end

/-- The conditions left after an instruction. -/
theorem condTaken_itConds (i : Instr) (s : State) : (s.condTaken i.set).itConds = condsAfter i s := by
  cases i <;> rfl

/-! ### writeReg -/

section
variable (s : State) (t : RegNum) (v : Word)
@[simp] theorem writeReg_params : (s.writeReg t v).params = s.params := by unfold State.writeReg; split <;> rfl
@[simp] theorem writeReg_env : (s.writeReg t v).env = s.env := by unfold State.writeReg; split <;> rfl
@[simp] theorem writeReg_fpexc : (s.writeReg t v).fpexc = s.fpexc := by unfold State.writeReg; split <;> rfl
@[simp] theorem writeReg_staleEn : (s.writeReg t v).staleEn = s.staleEn := by unfold State.writeReg; split <;> rfl
@[simp] theorem writeReg_text : (s.writeReg t v).text = s.text := by unfold State.writeReg; split <;> rfl
@[simp] theorem writeReg_events : (s.writeReg t v).events = s.events := by unfold State.writeReg; split <;> rfl
@[simp] theorem writeReg_itConds : (s.writeReg t v).itConds = s.itConds := by unfold State.writeReg; split <;> rfl
@[simp] theorem writeReg_draws : (s.writeReg t v).draws = s.draws := by unfold State.writeReg; split <;> rfl
end

/-- A register number other than 15 names one of R0 to R14. -/
theorem regNum_lt_of_ne {t : RegNum} (h : t ≠ 15#4) : t.toNat < 15 := by
  have : t.toNat ≠ 15 := fun e => h (BitVec.eq_of_toNat_eq (by simpa using e))
  omega

/-- Writing a register other than R15 leaves the pc. -/
theorem writeReg_pc (s : State) {t : RegNum} (v : Word) (h : t ≠ 15#4) : (s.writeReg t v).pc = s.pc := by
  unfold State.writeReg; rw [if_pos (regNum_lt_of_ne h)]

/-- Reading back the register just written. -/
theorem readReg_writeReg_self (s : State) {t : RegNum} (v : Word) (h : t ≠ 15#4) :
    (s.writeReg t v).readReg t = v := by
  have hl := regNum_lt_of_ne h
  simp [State.writeReg, State.readReg, hl]

/-- Reading a register other than the one written. -/
theorem readReg_writeReg_other (s : State) {t u : RegNum} (v : Word) (hu : u ≠ t) (ht : t ≠ 15#4) :
    (s.writeReg t v).readReg u = s.readReg u := by
  have hl := regNum_lt_of_ne ht
  have hn : t.toNat ≠ u.toNat := fun e => hu (BitVec.eq_of_toNat_eq e.symm)
  simp [State.writeReg, State.readReg, hl, hn]

/-- A register other than R15 does not see the pc, the draws or FPEXC. -/
theorem readReg_congr {s s' : State} {u : RegNum} (h : s'.regs = s.regs) (hu : u ≠ 15#4) :
    s'.readReg u = s.readReg u := by
  have hl := regNum_lt_of_ne hu
  simp [State.readReg, hl, h]

/-! ### The two moves -/

section
variable (s : State) (t : RegNum)
@[simp] theorem moveFromFpexc_params : (s.moveFromFpexc t).params = s.params := by simp [State.moveFromFpexc]
@[simp] theorem moveFromFpexc_env : (s.moveFromFpexc t).env = s.env := by simp [State.moveFromFpexc]
@[simp] theorem moveFromFpexc_fpexc : (s.moveFromFpexc t).fpexc = s.fpexc := by simp [State.moveFromFpexc]
@[simp] theorem moveFromFpexc_staleEn : (s.moveFromFpexc t).staleEn = s.staleEn := by simp [State.moveFromFpexc]
@[simp] theorem moveFromFpexc_text : (s.moveFromFpexc t).text = s.text := by simp [State.moveFromFpexc]
@[simp] theorem moveFromFpexc_events : (s.moveFromFpexc t).events = s.events := by simp [State.moveFromFpexc]
@[simp] theorem moveFromFpexc_itConds : (s.moveFromFpexc t).itConds = s.itConds := by simp [State.moveFromFpexc]
@[simp] theorem moveFromFpexc_draws : (s.moveFromFpexc t).draws = s.draws + 32 := by simp [State.moveFromFpexc]
@[simp] theorem moveToFpexc_params : (s.moveToFpexc t).params = s.params := rfl
@[simp] theorem moveToFpexc_env : (s.moveToFpexc t).env = s.env := rfl
@[simp] theorem moveToFpexc_fpexc :
    (s.moveToFpexc t).fpexc = fpexcWrite s.params s.fpexc (s.readReg t) := rfl
@[simp] theorem moveToFpexc_staleEn :
    (s.moveToFpexc t).staleEn = staleAfterWrite s.params s.staleEn s.fpexc.en := rfl
@[simp] theorem moveToFpexc_regs : (s.moveToFpexc t).regs = s.regs := rfl
@[simp] theorem moveToFpexc_pc : (s.moveToFpexc t).pc = s.pc + 4 := rfl
@[simp] theorem moveToFpexc_text : (s.moveToFpexc t).text = s.text := rfl
@[simp] theorem moveToFpexc_events : (s.moveToFpexc t).events = s.events := rfl
@[simp] theorem moveToFpexc_itConds : (s.moveToFpexc t).itConds = s.itConds := rfl
@[simp] theorem moveToFpexc_draws : (s.moveToFpexc t).draws = s.draws := rfl
end

/-- VMRS advances the pc by 4. -/
theorem moveFromFpexc_pc (s : State) {t : RegNum} (h : t ≠ 15#4) : (s.moveFromFpexc t).pc = s.pc + 4 := by
  simp [State.moveFromFpexc, writeReg_pc s _ h]

/-- The registers after VMRS are those after its register write. -/
theorem moveFromFpexc_regs (s : State) (t : RegNum) :
    (s.moveFromFpexc t).regs = (s.writeReg t (fpexcRead s.params s.fpexc s.drawn)).regs := rfl

/-- The destination of VMRS receives what FPEXC reads as. -/
theorem moveFromFpexc_readReg_self (s : State) {t : RegNum} (h : t ≠ 15#4) :
    (s.moveFromFpexc t).readReg t = fpexcRead s.params s.fpexc s.drawn :=
  (readReg_congr (moveFromFpexc_regs s t) h).trans (readReg_writeReg_self s _ h)

/-- Every other register keeps its value under VMRS. -/
theorem moveFromFpexc_readReg_other (s : State) {t u : RegNum} (h : t ≠ 15#4) (hu : u ≠ t) (hu15 : u ≠ 15#4) :
    (s.moveFromFpexc t).readReg u = s.readReg u :=
  (readReg_congr (moveFromFpexc_regs s t) hu15).trans (readReg_writeReg_other s _ hu h)

end Sys2Proof.Machine
end

