-- ==== Sys2Proof/Laws/Memory.lean ====
section
/-! SUPPORT. The laws of program text: every operation keeps the canonical form; a read after a write to the same place
gives the value written, and a write leaves every other place alone. -/

namespace Sys2Proof.Machine

/-- An address above which all of `m` lies has no entry in `m`. -/
theorem Memory.read_eq_none_of_above {m : Memory} {a : Nat} (hw : Memory.wf m = true) (h : Memory.above a m = true)
    {b : Nat} (hb : b ≤ a) : Memory.read m b = none := by
  induction m generalizing a with
  | nil => rfl
  | cons e rest ih =>
    obtain ⟨c, v⟩ := e
    simp only [Memory.wf, Memory.above, Bool.and_eq_true, decide_eq_true_eq] at hw h
    simp only [Memory.read]
    rw [if_neg (by omega)]
    exact ih hw.2 hw.1.2 (by omega)

/-- What lies above an address still does after a write above it. -/
theorem Memory.above_write {m : Memory} {a b : Nat} {v : Byte} (h : Memory.above a m = true) (hb : a < b) :
    Memory.above a (Memory.write m b v) = true := by
  cases m with
  | nil => simpa [Memory.write, Memory.above] using hb
  | cons e rest =>
    obtain ⟨c, u⟩ := e
    simp only [Memory.above, decide_eq_true_eq] at h
    simp only [Memory.write]
    split
    · simpa [Memory.above] using hb
    · split
      · simpa [Memory.above] using hb
      · simpa [Memory.above] using h

/-- A write keeps the canonical form. -/
theorem Memory.write_wf {m : Memory} {a : Nat} {v : Byte} (hw : Memory.wf m = true) (ha : a < 2 ^ 32) :
    Memory.wf (Memory.write m a v) = true := by
  induction m with
  | nil => simpa [Memory.write, Memory.wf, Memory.above] using ha
  | cons e rest ih =>
    obtain ⟨b, u⟩ := e
    simp only [Memory.wf, Bool.and_eq_true, decide_eq_true_eq] at hw
    simp only [Memory.write]
    split
    · simp only [Memory.wf, Memory.above, Bool.and_eq_true, decide_eq_true_eq]
      exact ⟨⟨ha, by assumption⟩, ⟨hw.1, hw.2⟩⟩
    · split
      · rename_i hab
        subst hab
        simp only [Memory.wf, Bool.and_eq_true, decide_eq_true_eq]
        exact ⟨⟨ha, hw.1.2⟩, hw.2⟩
      · simp only [Memory.wf, Bool.and_eq_true, decide_eq_true_eq]
        exact ⟨⟨hw.1.1, Memory.above_write hw.1.2 (by omega)⟩, ih hw.2⟩

/-- Writing several bytes keeps the canonical form. -/
theorem Memory.writeBytes_wf {m : Memory} {a : Word} {vs : List Byte} (hw : Memory.wf m = true) :
    Memory.wf (Memory.writeBytes m a vs) = true := by
  induction vs generalizing m a with
  | nil => exact hw
  | cons v vs ih => exact ih (Memory.write_wf hw a.isLt)

/-- A read after a write to the same place. -/
theorem Memory.read_write_same (m : Memory) (a : Nat) (v : Byte) : Memory.read (Memory.write m a v) a = some v := by
  induction m with
  | nil => simp [Memory.write, Memory.read]
  | cons e rest ih =>
    obtain ⟨b, u⟩ := e
    simp only [Memory.write]
    split
    · simp [Memory.read]
    · split
      · simp [Memory.read]
      · simp only [Memory.read]
        rw [if_neg (by assumption)]
        exact ih

/-- A write leaves every other place alone. -/
theorem Memory.read_write_other (m : Memory) {a b : Nat} (v : Byte) (h : b ≠ a) :
    Memory.read (Memory.write m a v) b = Memory.read m b := by
  induction m with
  | nil => simp [Memory.write, Memory.read, h]
  | cons e rest ih =>
    obtain ⟨c, u⟩ := e
    simp only [Memory.write]
    split
    · simp [Memory.read, h]
    · split
      · rename_i hac
        subst hac
        simp [Memory.read, h]
      · simp only [Memory.read, ih]

/-- The memory of the state after reset is canonical. -/
theorem reset_text_wf : Memory.wf State.reset.text = true := rfl

/-- Placing an instruction word keeps the canonical form. -/
theorem withFetchWord_text_wf (s : State) (nbits w : Nat) (h : Memory.wf s.text = true) :
    Memory.wf (s.withFetchWord nbits w).text = true :=
  Memory.writeBytes_wf h

end Sys2Proof.Machine
end

