-- ==== Sys2Proof/Laws/Ops.lean ====
section
/-! SUPPORT. One lemma per shared operation that says everything it can do, for the provers to cite instead of unfolding. -/

namespace Sys2Proof.Machine

/-! ### Bits -/

/-- Bit `n` of `bitsOf w f` is `f n`. -/
@[simp] theorem getLsbD_bitsOf (w : Nat) (f : Nat → Bool) (n : Nat) :
    (bitsOf w f).getLsbD n = (decide (n < w) && f n) := by
  induction w with
  | zero => simp [bitsOf]
  | succ w ih =>
    rw [bitsOf, BitVec.getLsbD_cons, ih]
    split
    · subst_vars; simp
    · have : n < w + 1 ↔ n < w := by omega
      simp [this]

/-- Bit `n` of `bitsOf w f`, by index. -/
@[simp] theorem getElem_bitsOf (w : Nat) (f : Nat → Bool) (n : Nat) (h : n < w) : (bitsOf w f)[n] = f n := by
  rw [← BitVec.getLsbD_eq_getElem, getLsbD_bitsOf]
  simp [h]

/-- Bit `n` of `FPEXC_read()`. -/
theorem getLsbD_fpexcRead (p : Params) (f : Fpexc) (d : Nat → Bool) {n : Nat} (h : n < 32) :
    (fpexcRead p f d).getLsbD n = fpexcReadBit p f d n := by
  simp [fpexcRead, h]

/-- Bit `n` of `FPEXC_read()`, by index. -/
@[simp] theorem getElem_fpexcRead (p : Params) (f : Fpexc) (d : Nat → Bool) {n : Nat} (h : n < 32) :
    (fpexcRead p f d)[n] = fpexcReadBit p f d n :=
  getElem_bitsOf 32 _ n h

/-- Bit `n` of the mask of reserved cells. -/
theorem getLsbD_resvMask (p : Params) (n : Nat) :
    (resvMask p).getLsbD n = (p.res == .stored && decide (n < 32) && isReserved p n) := by
  cases h : p.res <;> simp [resvMask, h]

/-- Bit `n` of the mask of reserved cells, by index. -/
theorem getElem_resvMask (p : Params) {n : Nat} (h : n < 32) :
    (resvMask p)[n] = (p.res == .stored && isReserved p n) := by
  rw [← BitVec.getLsbD_eq_getElem, getLsbD_resvMask]
  simp [h]

/-- A reserved position is a bit of the register. -/
theorem lt_of_isReserved {p : Params} {n : Nat} (h : isReserved p n = true) : n < 32 := by
  simp only [isReserved, Bool.or_eq_true, Bool.and_eq_true, decide_eq_true_eq, beq_iff_eq] at h
  omega

/-! ### Configurations -/

theorem cfgName_eq_cfgA {p : Params} : cfgName p = .cfgA ↔ isCfgA p = true := by
  cases p with
  | mk _ tr rz => cases tr <;> cases rz <;> simp [cfgName, isCfgA]

theorem cfgName_eq_cfgB {p : Params} : cfgName p = .cfgB ↔ p.trapFpexc = false ∧ p.strideLenRaz = false := by
  cases p with
  | mk _ tr rz => cases tr <;> cases rz <;> simp [cfgName]

theorem cfgName_eq_cfgC {p : Params} : cfgName p = .cfgC ↔ p.trapFpexc = true ∧ p.strideLenRaz = true := by
  cases p with
  | mk _ tr rz => cases tr <;> cases rz <;> simp [cfgName]

theorem cfgName_eq_cfgD {p : Params} : cfgName p = .cfgD ↔ isCfgD p = true := by
  cases p with
  | mk _ tr rz => cases tr <;> cases rz <;> simp [cfgName, isCfgD]

/-! ### Cells -/

@[simp] theorem known_ofBool (b d : Bool) : (Cell.ofBool b).known d = b := by cases b <;> rfl
@[simp] theorem ofBool_false : Cell.ofBool false = .zero := rfl
@[simp] theorem ofBool_true : Cell.ofBool true = .one := rfl
@[simp] theorem known_zero (d : Bool) : Cell.zero.known d = false := rfl
@[simp] theorem known_one (d : Bool) : Cell.one.known d = true := rfl
@[simp] theorem known_u (d : Bool) : Cell.u.known d = d := rfl

/-- A cell that is not `U` is the cell of the bit it reads as. -/
theorem ofBool_known {c : Cell} (h : c ≠ .u) (d : Bool) : Cell.ofBool (c.known d) = c := by
  cases c <;> first | rfl | exact absurd rfl h

/-! ### Outcomes -/

/-- A guarded step goes on exactly when the check allows it. -/
theorem guarded_eq_next {c : CheckResult} {n s' : State} :
    guarded c n = .next s' ↔ c = .allow ∧ s' = n := by
  cases c <;> simp [guarded, CheckResult.fault?, takeException, eq_comm]

/-- A guarded step faults exactly with the check's fault. -/
theorem guarded_eq_fault {c : CheckResult} {n : State} {r : Fault} :
    guarded c n = .fault r ↔ c.fault? = some r := by
  cases c <;> simp [guarded, CheckResult.fault?, takeException]

/-- A check has no fault exactly when it is `Allow`. -/
theorem fault?_eq_none {c : CheckResult} : c.fault? = none ↔ c = .allow := by
  cases c <;> simp [CheckResult.fault?]

/-- A failed condition goes on as a no-op: with the check allowing (R126 (a)), or, on a free choice, without. -/
theorem condFailed_eq_next {s s' : State} (h : condFailed s = .next s') :
    s' = s.advance ∨ s' = (s.takeDraws 1).advance := by
  unfold condFailed at h
  split at h
  · exact .inl (by simpa [eq_comm] using h)
  · split at h
    · simp [takeException] at h
    · exact .inr (by simpa [eq_comm] using h)

/-- When an access answers a next state: its register was admitted, and either its condition held, the check allowed it
and the state is the form's own, or its condition failed and it is a no-op. -/
theorem accessForm_eq_next {set : InstrSet} {passed : Bool} {t : RegNum} {s s' : State} {effect : State → State}
    (h : accessForm set passed t s effect = .next s') :
    admission s.params set t = none ∧
      ((passed = true ∧ accessCheck s.env = .allow ∧ s' = effect (s.condTaken set)) ∨
        (passed = false ∧ (s' = (s.condTaken set).advance ∨ s' = ((s.condTaken set).takeDraws 1).advance))) := by
  unfold accessForm at h
  split at h
  · cases h
  · rename_i ha
    refine ⟨ha, ?_⟩
    cases hp : passed <;> simp only [hp, if_true] at h
    · exact .inr ⟨rfl, condFailed_eq_next (by simpa using h)⟩
    · obtain ⟨hc, hn⟩ := guarded_eq_next.mp h
      exact .inl ⟨rfl, hc, hn⟩

/-- An admitted register is not R15. -/
theorem admission_ne15 {p : Params} {set : InstrSet} {t : RegNum} (h : admission p set t = none) : t ≠ 15#4 := by
  rintro rfl
  unfold admission at h
  split at h <;> simp at h

/-- When an access is admitted (R7, R127). -/
theorem admission_eq_none {p : Params} {set : InstrSet} {t : RegNum} (hf : p.haveFp = true) (h15 : t ≠ 15#4)
    (h13 : set = .t32 → t = 13#4 → p.t32SpOk = true) : admission p set t = none := by
  unfold admission
  rw [if_neg (by simp [hf]), if_neg h15, if_neg]
  rintro ⟨a, b, c⟩
  simp [h13 a b] at c

/-- A condition that is named is not `1111`. -/
theorem cond_ne_of_some {b : BitVec 4} {c : Cond} (h : condOfBits b = some c) : (b != 0b1111#4) = true := by
  rw [bne_iff_ne]
  rintro rfl
  exact absurd h (by simp [condOfBits])

/-- Every value of `cond` but `1111` names a condition. -/
theorem exists_cond {b : BitVec 4} (h : (b != 0b1111#4) = true) : ∃ c, condOfBits b = some c := by
  have : (condOfBits b).isSome = true := by revert b; decide
  exact Option.isSome_iff_exists.mp this

/-- An admitted instruction whose condition holds is its effect behind the access check. -/
theorem exec_passed {i : Instr} {s : State} (ha : Admitted i s) (hp : condPassed i s = true) :
    exec i s = guarded (accessCheck s.env) (formEffect i s) := by
  obtain ⟨-, hf, h15, h13⟩ := ha
  cases i with
  | vmrsA1 b t =>
    simp only [condPassed] at hp
    cases hc : condOfBits b <;> simp [hc] at hp
    simp [exec, execVmrsA1, accessA32, hc, accessForm, hp, admission_eq_none (set := .a32) (t := t) hf h15 nofun, formEffect]
  | vmsrA1 b t =>
    simp only [condPassed] at hp
    cases hc : condOfBits b <;> simp [hc] at hp
    simp [exec, execVmsrA1, accessA32, hc, accessForm, hp, admission_eq_none (set := .a32) (t := t) hf h15 nofun, formEffect]
  | vmrsT1 t =>
    simp only [condPassed] at hp
    simp [exec, execVmrsT1, accessT32, accessForm, hp, admission_eq_none (set := .t32) (t := t) hf h15 (fun _ => h13 rfl), formEffect]
  | vmsrT1 t =>
    simp only [condPassed] at hp
    simp [exec, execVmsrT1, accessT32, accessForm, hp, admission_eq_none (set := .t32) (t := t) hf h15 (fun _ => h13 rfl), formEffect]

/-- An admitted instruction whose condition fails. -/
theorem exec_failed {i : Instr} {s : State} (ha : Admitted i s) (hp : condPassed i s = false) :
    exec i s = condFailed (s.condTaken i.set) := by
  obtain ⟨hw, hf, h15, h13⟩ := ha
  cases i with
  | vmrsA1 b t =>
    obtain ⟨c, hc⟩ := exists_cond hw
    simp [condPassed, hc] at hp
    simp [Instr.set, exec, execVmrsA1, accessA32, hc, accessForm, hp, admission_eq_none (set := .a32) (t := t) hf h15 nofun]
  | vmsrA1 b t =>
    obtain ⟨c, hc⟩ := exists_cond hw
    simp [condPassed, hc] at hp
    simp [Instr.set, exec, execVmsrA1, accessA32, hc, accessForm, hp, admission_eq_none (set := .a32) (t := t) hf h15 nofun]
  | vmrsT1 t =>
    simp only [condPassed] at hp
    simp [Instr.set, exec, execVmrsT1, accessT32, accessForm, hp, admission_eq_none (set := .t32) (t := t) hf h15 (fun _ => h13 rfl)]
  | vmsrT1 t =>
    simp only [condPassed] at hp
    simp [Instr.set, exec, execVmsrT1, accessT32, accessForm, hp, admission_eq_none (set := .t32) (t := t) hf h15 (fun _ => h13 rfl)]

/-- Everything an instruction that answers a next state can have done. -/
theorem exec_eq_next {i : Instr} {s s' : State} (h : exec i s = .next s') :
    (∃ t, t ≠ 15#4 ∧ accessCheck s.env = .allow ∧ (i = .vmrsT1 t ∨ ∃ c, i = .vmrsA1 c t) ∧ s' = (s.condTaken i.set).moveFromFpexc t) ∨
      (∃ t, t ≠ 15#4 ∧ accessCheck s.env = .allow ∧ (i = .vmsrT1 t ∨ ∃ c, i = .vmsrA1 c t) ∧ s' = (s.condTaken i.set).moveToFpexc t) ∨
      s' = (s.condTaken i.set).advance ∨ s' = ((s.condTaken i.set).takeDraws 1).advance := by
  cases i with
  | vmrsA1 c t =>
    simp only [exec, execVmrsA1, accessA32] at h
    split at h
    · cases h
    · obtain ⟨ha, ⟨-, hc, rfl⟩ | ⟨-, hn⟩⟩ := accessForm_eq_next h
      · exact .inl ⟨t, admission_ne15 ha, hc, .inr ⟨c, rfl⟩, rfl⟩
      · exact .inr (.inr hn)
  | vmsrA1 c t =>
    simp only [exec, execVmsrA1, accessA32] at h
    split at h
    · cases h
    · obtain ⟨ha, ⟨-, hc, rfl⟩ | ⟨-, hn⟩⟩ := accessForm_eq_next h
      · exact .inr (.inl ⟨t, admission_ne15 ha, hc, .inr ⟨c, rfl⟩, rfl⟩)
      · exact .inr (.inr hn)
  | vmrsT1 t =>
    simp only [exec, execVmrsT1, accessT32] at h
    obtain ⟨ha, ⟨-, hc, rfl⟩ | ⟨-, hn⟩⟩ := accessForm_eq_next h
    · exact .inl ⟨t, admission_ne15 ha, hc, .inl rfl, rfl⟩
    · exact .inr (.inr hn)
  | vmsrT1 t =>
    simp only [exec, execVmsrT1, accessT32] at h
    obtain ⟨ha, ⟨-, hc, rfl⟩ | ⟨-, hn⟩⟩ := accessForm_eq_next h
    · exact .inr (.inl ⟨t, admission_ne15 ha, hc, .inl rfl, rfl⟩)
    · exact .inr (.inr hn)

/-- An instruction step that answers a next state is exec of the fetched instruction. -/
theorem runInstruction_eq_next {s s' : State} (h : runInstruction s = .next s') :
    ∃ i, s.fetch = .ok i ∧ exec i s = .next s' := by
  unfold runInstruction at h
  split at h
  · rename_i i hi
    exact ⟨i, hi, h⟩
  · cases h

/-- Everything an event that answers a next state can have done. -/
theorem stepEvent_eq_next {ev : Event} {s s' : State} (h : stepEvent ev s = .next s') :
    (∃ cause f, ev = .syncException true cause ∧ fpexcRecord s.params s.fpexc cause = some f ∧
        causeAdmissible s.env cause = true ∧ s' = { s with fpexc := f }) ∨
      (∃ cause, ev = .syncException false cause ∧ s' = s) ∨
      (∃ reg, ev = .fpAccess reg false ∧ fpUndefinedByEn s = false ∧ s' = s.takeDraws 2) ∨
      (ev = .contextSync ∧ s' = { s with staleEn := none }) ∨
      (∃ e conds, ev = .inputs e conds ∧ s' = { s with env := { e with el := s.env.el }, itConds := conds }) ∨
      (∃ i, ev = .instruction ∧ s.fetch = .ok i ∧ exec i s = .next s') ∨
      (ev = .reset ∧ stepReset s = .next s') := by
  unfold stepEvent at h
  split at h
  · cases h
  · unfold runEvent at h
    cases ev with
    | syncException cp cause =>
      simp only [stepSyncException] at h
      split at h
      · rename_i hcp
        subst hcp
        split at h
        · cases h
        · rename_i f hf
          split at h
          · rename_i ha
            cases h
            exact .inl ⟨cause, f, rfl, hf, ha, rfl⟩
          · cases h
      · rename_i hcp
        cases h
        exact .inr (.inl ⟨cause, by simpa using hcp, rfl⟩)
    | fpAccess reg oc =>
      simp only [stepFpAccess] at h
      split at h
      · cases h
      · split at h
        · cases h
        · rename_i hu ho
          cases h
          exact .inr (.inr (.inl ⟨reg, by simpa using ho, by simpa using hu, rfl⟩))
    | contextSync =>
      cases h
      exact .inr (.inr (.inr (.inl ⟨rfl, rfl⟩)))
    | inputs e conds =>
      cases h
      exact .inr (.inr (.inr (.inr (.inl ⟨e, conds, rfl, rfl⟩))))
    | instruction =>
      obtain ⟨i, hf, hi⟩ := runInstruction_eq_next h
      exact .inr (.inr (.inr (.inr (.inr (.inl ⟨i, rfl, hf, hi⟩)))))
    | reset => exact .inr (.inr (.inr (.inr (.inr (.inr ⟨rfl, h⟩)))))

/-- A pending event is the step, where the functionality is implemented. -/
theorem step_event {s : State} {ev : Event} {rest : List Event} (h : s.events = ev :: rest)
    (hf : s.params.haveFp = true) : step s = runEvent ev { s with events := rest } := by
  simp [step, h, stepEvent, hf]

/-- Everything a step that answers a next state can have been: an event, or an instruction fetched at the pc. -/
theorem step_eq_next {s s' : State} (h : step s = .next s') :
    (∃ ev rest, s.events = ev :: rest ∧ stepEvent ev { s with events := rest } = .next s') ∨
      (∃ i, s.events = [] ∧ s.fetch = .ok i ∧ exec i s = .next s') := by
  unfold step at h
  split at h
  · rename_i ev rest he
    exact .inl ⟨ev, rest, he, h⟩
  · rename_i he
    obtain ⟨i, hi, hx⟩ := runInstruction_eq_next h
    exact .inr ⟨i, he, hi, hx⟩

end Sys2Proof.Machine
end

