-- ==== Sys2Proof/Laws/Fpexc.lean ====
section
/-! SUPPORT. The register: a write, a recording and a reset keep the form of the cells (R33), and what a recording
leaves alone. -/

namespace Sys2Proof.Machine

/-- The form of the cells, as its six conditions. -/
theorem fpexcWf_iff {p : Params} {f : Fpexc} :
    fpexcWf p f = true ↔
      (isCfgA p = true → f.dex = .zero) ∧ (isCfgD p = false → f.tfv = .zero) ∧
      (p.trapFpexc = false → f.flags = ⟨.zero, .zero, .zero, .zero, .zero, .zero⟩) ∧
      f.resv.value &&& ~~~(resvMask p) = 0 ∧ f.resv.unknown &&& ~~~(resvMask p) = 0 ∧
      f.resv.value &&& f.resv.unknown = 0 := by
  simp only [fpexcWf, Bool.and_eq_true, Bool.or_eq_true, Bool.not_eq_true', beq_iff_eq, and_assoc]
  cases isCfgA p <;> cases isCfgD p <;> cases p.trapFpexc <;> simp

/-- In CFG_A there is no trapping, and in CFG_D there is. -/
theorem not_isCfgD_of_not_trap {p : Params} (h : p.trapFpexc = false) : isCfgD p = false := by simp [isCfgD, h]

/-- A reserved cell after a write that stores it (R53). -/
theorem resvCell_written {p : Params} {w : Word} {n : Nat} (hr : p.res = .stored) (hn : isReserved p n = true) :
    resvCell { value := w &&& resvMask p, unknown := 0 } n = Cell.ofBool (w.getLsbD n) := by
  have h := lt_of_isReserved hn
  simp [resvCell, getElem_resvMask, hr, hn, h]

/-- A reserved position reads as R52's `res(n, f)`, with f = 1 for bits 10:8 and 0 elsewhere. -/
theorem fpexcReadBit_reserved {p : Params} (f : Fpexc) (d : Nat → Bool) {n : Nat} (hn : isReserved p n = true) :
    fpexcReadBit p f d n = readResv p f d n (decide (8 ≤ n ∧ n ≤ 10)) := by
  simp only [isReserved, Bool.or_eq_true, Bool.and_eq_true, decide_eq_true_eq, beq_iff_eq] at hn
  have hne : n ≠ 31 ∧ n ≠ 30 ∧ n ≠ 26 ∧ n ≠ 7 ∧ n ≠ 4 ∧ n ≠ 3 ∧ n ≠ 2 ∧ n ≠ 1 ∧ n ≠ 0 := by omega
  simp only [fpexcReadBit, hne, if_false]
  by_cases h29 : n = 29
  · subst h29
    simp [readDex, show isCfgA p = true by simpa using hn]
  · rw [if_neg h29]
    split
    · congr 1; simp; omega
    · congr 1; simp; omega

/-- `FPEXC_write` keeps the form of the cells. -/
theorem fpexcWrite_wf {p : Params} {f : Fpexc} (w : Word) (h : fpexcWf p f = true) :
    fpexcWf p (fpexcWrite p f w) = true := by
  obtain ⟨h1, h2, h3, h4, h5, h6⟩ := fpexcWf_iff.mp h
  refine fpexcWf_iff.mpr ⟨?_, h2, ?_, ?_⟩
  · intro ha; simp [fpexcWrite, ha, h1 ha]
  · intro ht; simp [fpexcWrite, ht, h3 ht]
  · cases hr : p.res with
    | hardwired => simpa [fpexcWrite, hr] using ⟨h4, h5, h6⟩
    | stored => simp [fpexcWrite, hr, BitVec.and_assoc]

/-- The recording step keeps EN and the reserved cells (R156). -/
theorem fpexcRecord_keeps {p : Params} {f f' : Fpexc} {cause : Cause} (h : fpexcRecord p f cause = some f') :
    f'.en = f.en ∧ f'.resv = f.resv := by
  cases cause with
  | unallocated => cases h; exact ⟨rfl, rfl⟩
  | otherSync => cases h; exact ⟨rfl, rfl⟩
  | strideLen op =>
    simp only [fpexcRecord] at h
    split at h <;> cases h
    exact ⟨rfl, rfl⟩
  | trappedFp a b t =>
    simp only [fpexcRecord] at h
    split at h <;> cases h
    exact ⟨rfl, rfl⟩

/-- The recording step keeps the form of the cells. -/
theorem fpexcRecord_wf {p : Params} {f f' : Fpexc} {cause : Cause} (h : fpexcRecord p f cause = some f')
    (hw : fpexcWf p f = true) : fpexcWf p f' = true := by
  have hk := fpexcRecord_keeps h
  obtain ⟨h1, h2, h3, h4⟩ := fpexcWf_iff.mp hw
  refine fpexcWf_iff.mpr ⟨?_, ?_, ?_, by rw [hk.2]; exact h4⟩
  all_goals
    intro hc
    cases cause <;> simp only [fpexcRecord] at h
  all_goals first | (split at h <;> cases h) | cases h
  all_goals simp_all [recordUndefinedRow, isCfgA, isCfgD]

/-- The cells after a reset have the form of the cells. -/
theorem fpexcReset_wf (p : Params) : fpexcWf p (fpexcReset p) = true := by
  refine fpexcWf_iff.mpr ⟨?_, ?_, ?_, ?_, ?_, ?_⟩
  · intro h; simp [fpexcReset, h]
  · intro h; simp [fpexcReset, h]
  · intro h; simp [fpexcReset, h]
  · simp [fpexcReset]
  · simp [fpexcReset]
  · simp [fpexcReset]

/-- `State.reset` holds the cells that the reset step gives its implementation (R69, R170). -/
theorem reset_fpexc : State.reset.fpexc = fpexcReset State.reset.params := rfl

end Sys2Proof.Machine
end

