-- ==== Sys2Proof/Laws/PerInstr.lean ====
section
/-! SUPPORT. A statement about every instruction as syntax, one lemma per constructor. -/

namespace Sys2Proof.Laws.EncodedLength

/-- Every instruction takes four bytes of program text (R110), whatever its operands. -/
def Statement (i : Instr) : Prop := (encode i).length = 4

theorem vmrsA1 (cond : BitVec 4) (t : RegNum) : Statement (.vmrsA1 cond t) := rfl
theorem vmsrA1 (cond : BitVec 4) (t : RegNum) : Statement (.vmsrA1 cond t) := rfl
theorem vmrsT1 (t : RegNum) : Statement (.vmrsT1 t) := rfl
theorem vmsrT1 (t : RegNum) : Statement (.vmsrT1 t) := rfl

end Sys2Proof.Laws.EncodedLength
end

