-- ==== Sys2Proof/Tests/Slice0.lean ====
section
/-! SUPPORT. The model's own tests. Expected values are those of spec/95_test_vectors.md (the subsection is named at each
group) or are read off the rule named; the last part shows for each statement with hypotheses a case that meets them. -/

namespace Sys2Proof.Tests

open Sys2Proof Sys2Proof.Machine

/-! ### Helpers -/

/-- The four configurations of R10 with `P_RES`. -/
def cfg (trap razStride : Bool) (res : ResKind) : Params :=
  { paramsAtReset with trapFpexc := trap, strideLenRaz := razStride, res := res }

/-- CFG_A, CFG_B, CFG_C, CFG_D. -/
def cfgA (res : ResKind) : Params := cfg false true res
def cfgB (res : ResKind) : Params := cfg false false res
def cfgC (res : ResKind) : Params := cfg true true res
def cfgD (res : ResKind) : Params := cfg true false res

/-- Every draw 0, and every draw 1. -/
def zeros : Nat → Bool := fun _ => false
def ones : Nat → Bool := fun _ => true

/-- The base input of section 2.7 at an Exception level. -/
def base (el : EL) : Env := { envAtReset with el := el }

/-- Inputs that allow every cause of the recording step but Underflow on other than half precision. -/
def recordEnv : Env :=
  { base .el1 with fpscrStride := 1, fpscrEnables := ⟨true, true, true, true, true, true⟩, fpscrFz := true }

/-- FPEXC after a reset and a write of `w`. -/
def written (p : Params) (w : Word) : Fpexc := fpexcWrite p (fpexcReset p) w

/-- The start of section 2.8: `S.EN` = 0, R0 = 0x40000000, R1 = 0xDEADBEEF, pc = 0x8000. -/
def start (p : Params) (e : Env) : State :=
  { State.reset with
    params := p, env := e, pc := 0x8000, fpexc := written p 0#32
    regs := ((Vector.replicate 15 0).set 0 0x40000000#32).set 1 0xDEADBEEF#32 }

/-- A state with one pending event. -/
def pending (p : Params) (e : Env) (ev : Event) : State := { start p e with events := [ev] }

/-- EN, R1 and the pc of a next state. -/
def seen (o : Host.Outcome State Fault Refusal) : Option (Cell × Word × Word) :=
  (nextOf o).map fun s => (s.fpexc.en, s.readReg 1, s.pc)

/-- What a read returns with every draw 0, and the mask of the bits that differ when every draw is 1. -/
def valueDraws (p : Params) (f : Fpexc) : Word × Word :=
  (fpexcRead p f zeros, fpexcRead p f zeros ^^^ fpexcRead p f ones)

/-- Several recordings, one after another. -/
def recordAll (p : Params) : Fpexc → List Cause → Option Fpexc
  | f, [] => some f
  | f, c :: cs => (fpexcRecord p f c).bind fun g => recordAll p g cs

/-- The read of section 2.4 after recordings. -/
def recorded (p : Params) (cs : List Cause) : Option (Word × Word) :=
  (recordAll p (written p 0x40000700#32) cs).map (valueDraws p)

/-- A trapped cause of a half-precision instruction with the flags set in a word (IDF 7, IXF 4, UFF 3, OFF 2, DZF 1,
IOF 0). -/
def trap (w : BitVec 8) : Cause :=
  .trappedFp true false
    ⟨w.getLsbD 7, w.getLsbD 4, w.getLsbD 3, w.getLsbD 2, w.getLsbD 1, w.getLsbD 0⟩

/-! ### Well-formedness: the one check, and an ill-formed term it refuses (R112) -/

theorem test_wf_vmrsA1 : Instr.wf (.vmrsA1 0b1111#4 0) = false ∧ Instr.wf (.vmrsA1 0b1110#4 15) = true := by decide
theorem test_wf_vmsrA1 : Instr.wf (.vmsrA1 0b1111#4 0) = false ∧ Instr.wf (.vmsrA1 0b0000#4 15) = true := by decide

/-! ### Decoding: words written out from the bit diagrams of R105 to R108 (section 2.10) -/

/-- X1, `VMRS R0, FPEXC`: cond 1110, 1110, opc 1111, reg 1000, Rt 0000, 1010, 0001, 0000. -/
theorem test_decode_vmrsA1 :
    decodeWord .a32 0b1110_1110_1111_1000_0000_1010_0001_0000#32 = some (.vmrsA1 0b1110#4 0) := by decide
/-- X6, `VMSREQ FPEXC, R14`. -/
theorem test_decode_vmsrA1 :
    decodeWord .a32 0b0000_1110_1110_1000_1110_1010_0001_0000#32 = some (.vmsrA1 0b0000#4 14) := by decide
/-- X7, `VMRS R0, FPEXC` in T32. -/
theorem test_decode_vmrsT1 :
    decodeWord .t32 0b1110_1110_1111_1000_0000_1010_0001_0000#32 = some (.vmrsT1 0) := by decide
/-- X8, `VMSR FPEXC, R2` in T32. -/
theorem test_decode_vmsrT1 :
    decodeWord .t32 0b1110_1110_1110_1000_0010_1010_0001_0000#32 = some (.vmsrT1 2) := by decide
/-- X5 as bytes in A32, least significant first; two bytes follow. -/
theorem test_decode_bytes_a32 :
    decode .a32 [0x10, 0x3A, 0xF8, 0x1E, 0xAA, 0xBB] = .ok (.vmrsA1 0b0001#4 3, [0xAA, 0xBB]) := by decide
/-- X8 as bytes in T32: the first halfword 0xEEE8 at the lower address, each halfword little-endian. -/
theorem test_decode_bytes_t32 : decode .t32 [0xE8, 0xEE, 0x10, 0x2A] = .ok (.vmsrT1 2, []) := by decide
/-- X9, X10, X11 and X13 are no instruction of this spec. -/
theorem test_decode_refused :
    decodeWord .a32 0xFEF80A10#32 = none ∧ decodeWord .a32 0xEEF10A10#32 = none ∧
    decodeWord .a32 0xEEF80A11#32 = none ∧ decodeWord .a32 0xE1A00000#32 = none := by decide
/-- R110: a 16-bit T32 instruction is refused after two bytes; a 32-bit one cut short is incomplete. -/
theorem test_decode_short :
    decode .t32 [0x00, 0xBF] = .error .notInScope ∧ decode .t32 [0xF8, 0xEE] = .error .truncated ∧
    decode .a32 [0x10, 0x0A, 0xF8] = .error .truncated := by decide
/-- X12 decodes with t = 15, and the step refuses it. -/
theorem test_decode_pc :
    decodeWord .a32 0xEEF8FA10#32 = some (.vmrsA1 0b1110#4 15) ∧
    refusalOf (step (State.reset.placeWord .a32 0xEEF8FA10#32)) = some .rtIsPc := by decide
/-- The four rows of spec/opcode_table.json, by their match words (A1 with a condition). -/
theorem test_table_words :
    decodeTableWord 32 0x0EF80A10 = some (.vmrsA1 0 0) ∧ decodeTableWord 32 0x0EE80A10 = some (.vmsrA1 0 0) ∧
    decodeTableWord 32 0xEEF80A10 = some (.vmrsT1 0) ∧ decodeTableWord 32 0xEEE80A10 = some (.vmsrT1 0) := by decide
/-- Each row's word is what the first step after reset runs; R[0] is zero there, so EN stays 0. -/
theorem test_table_steps :
    [0x0EF80A10, 0x0EE80A10, 0xEEF80A10, 0xEEE80A10].map
      (fun w => (nextOf (step (State.reset.withFetchWord 32 w))).map State.pc) =
      [some 4, some 4, some 4, some 4] := by decide

/-! ### Reads after reset and after a write (sections 2.1, 2.2) -/

theorem test_reset_read_hardwired :
    [cfgA, cfgB, cfgC, cfgD].map (fun c => valueDraws (c .hardwired) (fpexcReset (c .hardwired))) =
      [(0x00000700#32, 0#32), (0x00000700#32, 0x20000000#32), (0x04000700#32, 0x2000009F#32),
        (0x00000700#32, 0x2400009F#32)] := by decide
theorem test_reset_read_stored :
    [cfgA, cfgB, cfgC, cfgD].map (fun c => valueDraws (c .stored) (fpexcReset (c .stored))) =
      [(0#32, 0x3BFFFF60#32), (0#32, 0x3BFFFF60#32), (0x04000000#32, 0x3BFFFFFF#32), (0#32, 0x3FFFFFFF#32)] := by decide
/-- Not reset into AArch32: EN is a draw too. -/
theorem test_reset_read_en :
    (let p := { cfgA .hardwired with resetAArch32 := false }; valueDraws p (fpexcReset p)) =
      (0x00000700#32, 0x40000000#32) := by decide
theorem test_write_read_hardwired :
    [cfgA, cfgB, cfgC, cfgD].map (fun c => valueDraws (c .hardwired) (written (c .hardwired) 0xFFFFFFFF#32)) =
      [(0x40000700#32, 0#32), (0x60000700#32, 0#32), (0x6400079F#32, 0#32), (0x60000700#32, 0x0400009F#32)] := by decide
theorem test_write_read_stored :
    [cfgA, cfgB, cfgC, cfgD].map (fun c => valueDraws (c .stored) (written (c .stored) 0xFFFFFFFF#32)) =
      [(0x7BFFFF60#32, 0#32), (0x7BFFFF60#32, 0#32), (0x7FFFFFFF#32, 0#32), (0x7BFFFF60#32, 0x0400009F#32)] := by decide
/-- DEX = 0: the flags are draws in CFG_C, and TFV as well in CFG_D. -/
theorem test_write_read_dex_zero :
    [cfgC, cfgD].map (fun c => valueDraws (c .stored) (written (c .stored) 0x40000700#32)) =
      [(0x44000700#32, 0x0000009F#32), (0x40000700#32, 0x0400009F#32)] := by decide

/-! ### The recording step (sections 2.4, 2.5) -/

theorem test_record_unallocated :
    [cfgA, cfgB, cfgC, cfgD].map (fun c => recorded (c .hardwired) [.unallocated]) =
      [some (0x40000700#32, 0#32), some (0x40000700#32, 0#32), some (0x44000700#32, 0x0000009F#32),
        some (0x40000700#32, 0x0400009F#32)] := by decide
theorem test_record_strideLen :
    [cfgA, cfgB, cfgC, cfgD].map (fun c => recorded (c .hardwired) [.strideLen .vadd]) =
      [none, some (0x60000700#32, 0#32), none, some (0x60000700#32, 0x0000009F#32)] := by decide
theorem test_record_trapped :
    [cfgA, cfgB, cfgC, cfgD].map (fun c => recorded (c .hardwired) [trap 0x14]) =
      [none, none, some (0x64000714#32, 0#32), some (0x64000714#32, 0#32)] := by decide
theorem test_record_trapped_all : recorded (cfgD .hardwired) [trap 0x9F] = some (0x6400079F#32, 0#32) := by decide
/-- Section 2.5: the handler did not clear. -/
theorem test_record_stale :
    [cfgC, cfgD].map (fun c => recorded (c .hardwired) [trap 0x01, trap 0x02]) =
      [some (0x64000702#32, 0x00000001#32), some (0x64000702#32, 0x00000001#32)] ∧
    [cfgC, cfgD].map (fun c => recorded (c .hardwired) [trap 0x01, trap 0x02, .unallocated]) =
      [some (0x44000700#32, 0x2000009F#32), some (0x40000700#32, 0x2400009F#32)] := by decide
/-- Section 2.6: the handler clears, and TFV's cell stays 1. -/
theorem test_record_cleared :
    (recordAll (cfgD .hardwired) (written (cfgD .hardwired) 0x40000700#32) [trap 0x14]).map
        (fun f => let g := fpexcWrite (cfgD .hardwired) f 0x40000700#32; (g.tfv, valueDraws (cfgD .hardwired) g)) =
      some (.one, (0x40000700#32, 0x0400009F#32)) := by decide

/-! ### The access check (section 2.7) -/

/-- V1 to V6. -/
theorem test_check_el0_el1 :
    accessArm (base .el0) = .e0p1 ∧ accessArm (base .el1) = .e1p7 ∧
    accessArm { base .el1 with cpacrCp10 := 0b00#2 } = .e1p1 ∧
    accessArm { base .el1 with scrNs := true, nsacrCp10 := false } = .e1p1 ∧
    accessArm { base .el1 with scrNs := true, nsacrCp10 := false, el3AArch32 := false } = .e1p7 ∧
    accessArm { base .el1 with cpacrCp10 := 0b00#2, el1AArch32 := false } = .e1p7 := by decide
/-- V7 to V11 and V14. -/
theorem test_check_el1_el2AArch64 :
    let b := { base .el1 with el2Enabled := true, el2AArch32 := false }
    accessCheck { b with cptrEl2Tfp := true } = .trapA64 .el2 0x07 ∧
    accessCheck { b with cptrEl2Tfp := true, hcrEl2E2h := true } = .allow ∧
    accessCheck { b with hcrEl2E2h := true, cptrEl2Fpen := 0b10#2 } = .trapA64 .el2 0x07 ∧
    accessCheck { b with hcrEl2E2h := true, cptrEl2Fpen := 0b00#2 } = .trapA64 .el2 0x07 ∧
    accessCheck { b with hcrEl2E2h := true, cptrEl2Fpen := 0b01#2 } = .allow ∧
    accessCheck { b with hcrEl2Tid3 := true } = .trapA64 .el2 0x08 := by decide
/-- V12, V13, V15 to V18. -/
theorem test_check_el1_el2AArch32 :
    let b := { base .el1 with el2Enabled := true }
    accessArm { b with hcptrTcp10 := true } = .e1p4 ∧
    accessArm { b with hcptrTcp10 := true, hcrTid3 := true } = .e1p4 ∧
    accessArm { b with hcrTid3 := true } = .e1p6 ∧ accessArm { b with hcrEl2Tid3 := true } = .e1p7 ∧
    accessArm { base .el1 with el2AArch32 := false, cptrEl2Tfp := true, hcptrTcp10 := true, hcrEl2Tid3 := true,
                               hcrTid3 := true } = .e1p7 ∧
    accessArm { b with el1AArch32 := false, scrNs := true, nsacrCp10 := false } = .e1p4 := by decide
/-- V19 to V27. -/
theorem test_check_el2 :
    accessArm (base .el2) = .e2p4 ∧ accessArm { base .el2 with cptrEl2Tfp := true } = .e2p1 ∧
    accessArm { base .el2 with cptrEl2Tfp := true, hcrEl2E2h := true } = .e2p4 ∧
    accessArm { base .el2 with hcrEl2E2h := true, cptrEl2Fpen := 0b10#2 } = .e2p2 ∧
    accessCheck { base .el2 with el2Enabled := true, hcptrTcp10 := true } = .trapHyp 0x00 ∧
    accessArm { base .el2 with hcptrTcp10 := true } = .e2p4 ∧
    accessArm { base .el2 with el2Enabled := true, scrNs := true, nsacrCp10 := false } = .e2p3 ∧
    accessArm { base .el2 with el2Enabled := true, el2AArch32 := false, hcptrTcp10 := true } = .e2p4 ∧
    accessArm { base .el2 with cpacrCp10 := 0b00#2 } = .e2p4 := by decide
/-- V28 to V31. -/
theorem test_check_el3 :
    accessArm (base .el3) = .e3p2 ∧ accessArm { base .el3 with cpacrCp10 := 0b00#2 } = .e3p1 ∧
    accessArm { base .el3 with cpacrCp10 := 0b01#2 } = .e3p2 ∧
    accessArm { base .el3 with cpacrCp10 := 0b10#2, scrNs := true, nsacrCp10 := false, cptrEl2Tfp := true,
                               hcptrTcp10 := true } = .e3p2 := by decide

/-! ### Full steps (section 2.8), one step each -/

/-- I1, I2, I9: VMSR sets EN from R0 and from R13; VMRS reads 0x700. -/
theorem test_step_completes :
    seen (exec (.vmsrA1 0b1110#4 0) (start (cfgA .hardwired) (base .el1))) =
      some (.one, 0xDEADBEEF#32, 0x8004#32) ∧
    seen (exec (.vmrsA1 0b1110#4 1) (start (cfgA .hardwired) (base .el1))) = some (.zero, 0x700#32, 0x8004#32) ∧
    seen (exec (.vmsrA1 0b1110#4 13) ((start (cfgA .hardwired) (base .el1)).writeReg 13 0x40000000#32)) =
      some (.one, 0xDEADBEEF#32, 0x8004#32) := by decide
/-- I3, I4, I5, terminal outcomes; I8, I10, I11, refusals. -/
theorem test_step_stops :
    faultOf (exec (.vmrsA1 0b1110#4 1) (start (cfgA .hardwired) (base .el0))) = some .undefined ∧
    faultOf (exec (.vmsrA1 0b1110#4 0) (start (cfgA .hardwired) (base .el0))) = some .undefined ∧
    faultOf (exec (.vmsrA1 0b1110#4 0)
      (start (cfgA .hardwired) { base .el1 with el2Enabled := true, hcptrTcp10 := true })) =
      some (.trapHyp 0x08) ∧
    refusalOf (exec (.vmrsA1 0b1110#4 15) (start (cfgA .hardwired) (base .el1))) = some .rtIsPc ∧
    refusalOf (exec (.vmsrT1 13) (start { cfgA .hardwired with t32SpOk := false } (base .el1))) = some .rtIsSpT32 ∧
    refusalOf (exec (.vmrsA1 0b1110#4 1) (start { cfgA .hardwired with haveFp := false } (base .el1))) =
      some .noFp := by decide
/-- I6, `VMRSNE` with Z = 1 at EL1: only the pc moves. -/
theorem test_step_condition_fails :
    seen (exec (.vmrsA1 0b0001#4 1)
      (start (cfgA .hardwired) { base .el1 with flags := ⟨false, true, false, false⟩ })) =
      some (.zero, 0xDEADBEEF#32, 0x8004#32) := by decide
/-- I7, the same at EL0: both outcomes are admitted, and the free value says which. -/
theorem test_step_condition_fails_el0 :
    exec (.vmrsA1 0b0001#4 1) (start (cfgA .hardwired) { base .el0 with flags := ⟨false, true, false, false⟩ }) =
      if Config.draw 0 then .fault .undefined
      else .next { start (cfgA .hardwired) { base .el0 with flags := ⟨false, true, false, false⟩ } with
        pc := 0x8004, draws := 1 } := rfl
/-- I12: CFG_D with EN, DEX, TFV and OFF 1 reads 0x64000704, and writing that back changes nothing. -/
theorem test_step_write_back :
    let f : Fpexc := { written (cfgD .hardwired) 0x60000004#32 with tfv := .one }
    valueDraws (cfgD .hardwired) f = (0x64000704#32, 0#32) ∧
    fpexcWrite (cfgD .hardwired) f 0x64000704#32 = f := by decide
/-- The T32 forms: VMSR writes EN from R0; VMRS outside an IT block, and under one whose condition fails (R102). -/
theorem test_step_t32 :
    seen (exec (.vmsrT1 0) (start (cfgA .hardwired) (base .el1))) = some (.one, 0xDEADBEEF#32, 0x8004#32) ∧
    seen (exec (.vmrsT1 1) (start (cfgA .hardwired) (base .el1))) = some (.zero, 0x700#32, 0x8004#32) ∧
    seen (exec (.vmrsT1 1) { start (cfgA .hardwired) (base .el1) with itConds := [.eq] }) =
      some (.zero, 0xDEADBEEF#32, 0x8004#32) := by decide

/-! ### The effective EN (section 2.9) with `S.EN` = 0 -/

theorem test_effective_en :
    let e := { base .el0 with el2AArch32 := false, el2Enabled := true }
    let one := { cfgA .hardwired with el0Tge := .asIfOne }
    let p := cfgA .hardwired
    effectiveEn p (base .el0) .zero true = false ∧
    effectiveEn p { base .el0 with el1AArch32 := false } .zero false = true ∧
    effectiveEn p { e with hcrEl2Rw := true, hcrEl2Tge := true } .zero false = true ∧
    effectiveEn one { e with hcrEl2Tge := true } .zero false = true ∧
    effectiveEn p { e with hcrEl2Tge := true } .zero true = false ∧
    effectiveEn p { e with hcrEl2Rw := true } .zero true = false ∧
    effectiveEn p { e with el2Enabled := false, hcrEl2Rw := true, hcrEl2Tge := true } .zero true = false ∧
    effectiveEn p { e with el := .el1, el1AArch32 := false, hcrEl2Rw := true, hcrEl2Tge := true } .zero true = false ∧
    effectiveEn p (base .el3) .zero true = false := by decide
/-- N10: with `S.EN` = U the draw decides, unless the Note applies. -/
theorem test_effective_en_unknown :
    effectiveEn (cfgA .hardwired) (base .el2) .u true = true ∧ effectiveEn (cfgA .hardwired) (base .el2) .u false = false ∧
    effectiveEn (cfgA .hardwired) { base .el0 with el1AArch32 := false } .u false = true := by decide

/-! ### Cases that meet the hypotheses of the statements -/

/-- `DecodeInvertsEncode`: every form, at the ends of the register range. -/
theorem test_witness_DecodeInvertsEncode :
    [Instr.vmrsA1 0 0, .vmsrA1 14 15, .vmrsT1 15, .vmsrT1 0].all Instr.wf = true := by decide
/-- `EncodeInvertsDecode`: in both instruction sets. -/
theorem test_witness_EncodeInvertsDecode :
    decode .a32 [0x10, 0xFA, 0xE8, 0xEE, 1] = .ok (.vmsrA1 14 15, [1]) ∧
    decode .t32 [0xF8, 0xEE, 0x10, 0xFA] = .ok (.vmrsT1 15, []) := by decide

/-- A state whose program text holds one word at its pc. -/
def holding (set : InstrSet) (w : Word) : State := (start (cfgA .hardwired) (base .el1)).placeWord set w

/-- `StepRunsDecodedInstruction`: its three clauses. -/
theorem test_witness_StepRunsDecodedInstruction :
    (holding .t32 0xEEE82A10#32).events = [] ∧ (holding .t32 0xEEE82A10#32).env.iset = (Instr.vmsrT1 2).set ∧
    Memory.readBytes (holding .t32 0xEEE82A10#32).text (holding .t32 0xEEE82A10#32).pc 4 = encode (.vmsrT1 2) ∧
    (holding .a32 0xEEF81A10#32).fetch = .ok (.vmrsA1 14 1) ∧
    State.reset.events = [] ∧ State.reset.fetch = .error .noProgramText := by decide
/-- `ScheduledInstructionRuns`: an instruction before new inputs, with and without program text. -/
theorem test_witness_ScheduledInstructionRuns :
    let later : List Event := [.instruction, .inputs (base .el1) []]
    ({ holding .a32 0xEEF81A10#32 with events := later } : State).fetch = .ok (.vmrsA1 14 1) ∧
    ({ State.reset with events := later } : State).fetch = .error .noProgramText := by decide
/-- `EachInstructionTakesItsCondition`: in an IT block of two, `NE` then `EQ` with Z = 0, the first VMSR writes and leaves
the second condition, which fails. -/
theorem test_witness_EachInstructionTakesItsCondition :
    let s : State := { start (cfgA .hardwired) (base .el1) with itConds := [.ne, .eq] }
    condPassed (.vmsrT1 0) s = true ∧
    (nextOf (exec (.vmsrT1 0) s)).map (fun t => (t.fpexc.en, t.itConds, condPassed (.vmrsT1 1) t)) =
      some (.one, [.eq], false) ∧
    (nextOf (exec (.vmsrA1 14 0) s)).map State.itConds = some [.ne, .eq] := by decide
/-- `StepTakesOldestEventFirst`. -/
theorem test_witness_StepTakesOldestEventFirst :
    (pending (cfgA .hardwired) (base .el1) .contextSync).events = .contextSync :: [] := by decide
/-- `OtherWordsRefused`: X10 in A32, and the same in T32. -/
theorem test_witness_OtherWordsRefused :
    Memory.readBytes (holding .a32 0xEEF10A10#32).text 0x8000 4 = [0x10, 0x0A, 0xF1, 0xEE] ∧
    decodeWord .a32 (assemble .a32 0x10 0x0A 0xF1 0xEE) = none ∧
    Memory.readBytes (holding .t32 0xEEF10A10#32).text 0x8000 4 = [0xF1, 0xEE, 0x10, 0x0A] ∧
    decodeWord .t32 (assemble .t32 0xF1 0xEE 0x10 0x0A) = none := by decide

/-- An instruction of every form that is admitted and passes its condition in every state of these tests. -/
def forms : List Instr := [.vmrsA1 0b1110#4 1, .vmsrA1 0b1110#4 0, .vmrsT1 13, .vmsrT1 13]

/-- A base state is admitted for each of the forms, and their conditions pass. -/
theorem test_witness_Admitted (e : EL) :
    ∀ i ∈ forms, Admitted i (start (cfgA .hardwired) (base e)) ∧
      condPassed i (start (cfgA .hardwired) (base e)) = true := by
  intro i hi
  simp only [forms, List.mem_cons, List.not_mem_nil, or_false] at hi
  rcases hi with rfl | rfl | rfl | rfl <;>
    exact ⟨⟨by decide, rfl, by decide, fun _ _ => rfl⟩, by cases e <;> decide⟩
/-- `OutcomeCodesAndArms`: each outcome occurs (admission and condition as above). -/
theorem test_witness_OutcomeCodesAndArms :
    accessCheck (base .el0) = .undefined ∧
    accessCheck { base .el2 with cptrEl2Tfp := true } = .trapA64 .el2 0x07 ∧
    accessCheck { base .el1 with el2Enabled := true, el2AArch32 := false, hcrEl2Tid3 := true } = .trapA64 .el2 0x08 ∧
    accessCheck { base .el1 with el2Enabled := true, hcrTid3 := true } = .trapHyp 0x08 ∧
    accessCheck { base .el2 with el2Enabled := true, hcptrTcp10 := true } = .trapHyp 0x00 := by decide
/-- `El0AccessUndefined`: an EL0 state (admission and condition as above). -/
theorem test_witness_El0AccessUndefined : (start (cfgA .hardwired) (base .el0)).env.el = .el0 := by decide
/-- `El1Table`: the premises, and its seven rows in order at one input each. -/
theorem test_witness_El1Table :
    let a64 := { base .el1 with el2Enabled := true, el2AArch32 := false }
    let a32 := { base .el1 with el2Enabled := true }
    (base .el1).el = .el1 ∧ (base .el1).el1AArch32 = true ∧
    accessCheck { base .el1 with cpacrCp10 := 0b00#2 } = .undefined ∧ accessCheck (base .el1) = .allow ∧
    accessCheck { a64 with cptrEl2Tfp := true } = .trapA64 .el2 0x07 ∧
    accessCheck { a64 with hcrEl2E2h := true, cptrEl2Fpen := 0 } = .trapA64 .el2 0x07 ∧
    accessCheck { a64 with hcrEl2Tid3 := true } = .trapA64 .el2 0x08 ∧ accessCheck a64 = .allow ∧
    accessCheck { a32 with hcptrTcp10 := true } = .trapHyp 0x08 ∧
    accessCheck { a32 with hcrTid3 := true } = .trapHyp 0x08 ∧ accessCheck a32 = .allow := by decide
/-- `HigherLevelsReadFewerInputs`: an EL2 input, and two EL3 inputs that differ but agree on CPACR.cp10. -/
theorem test_witness_HigherLevelsReadFewerInputs :
    (base .el2).el = .el2 ∧ (base .el2).el2Enabled = false ∧ (base .el2).cptrEl2Tfp = false ∧
    (base .el2).hcrEl2E2h = false ∧ (base .el3).el = .el3 ∧ base .el3 ≠ { base .el3 with scrNs := true } ∧
    (base .el3).cpacrCp10 = { base .el3 with scrNs := true }.cpacrCp10 := by decide
/-- `VmrsA1Completes`, `VmsrA1Completes`: `NE` with Z = 0, and t at 0 and 14. -/
theorem test_witness_A1Completes :
    (start (cfgA .hardwired) (base .el1)).params.haveFp = true ∧ (0#4 : RegNum) ≠ 15#4 ∧ (14#4 : RegNum) ≠ 15#4 ∧
    condOfBits 0b0001#4 = some .ne ∧ condHolds .ne (start (cfgA .hardwired) (base .el1)).env.flags = true ∧
    accessCheck (start (cfgA .hardwired) (base .el1)).env = .allow := by decide
/-- `VmrsT1Completes`, `VmsrT1Completes`: t = 13 with `P_T32_SP_OK`, outside an IT block and inside one. -/
theorem test_witness_T1Completes :
    (start (cfgA .hardwired) (base .el1)).params.haveFp = true ∧ (13#4 : RegNum) ≠ 15#4 ∧
    (start (cfgA .hardwired) (base .el1)).params.t32SpOk = true ∧
    condHolds ((start (cfgA .hardwired) (base .el1)).itConds.headD .al) (base .el1).flags = true ∧
    condHolds ([Cond.ne, .eq].headD .al) (base .el1).flags = true ∧
    accessCheck (base .el1) = .allow := by decide
/-- `FailedConditionIsNoOp`: `EQ` with Z = 0 at EL1, where the check allows. -/
theorem test_witness_FailedConditionIsNoOp :
    let s := start (cfgA .hardwired) (base .el1)
    Admitted (.vmrsA1 0b0000#4 0) s ∧ condPassed (.vmrsA1 0b0000#4 0) s = false ∧ accessCheck s.env = .allow :=
  ⟨⟨rfl, rfl, by decide, nofun⟩, by decide, by decide⟩
/-- `FailedConditionMayStillFault`: an IT block's `EQ` with Z = 0 at EL0, where the check does not allow. -/
theorem test_witness_FailedConditionMayStillFault :
    let s : State := { start (cfgA .hardwired) (base .el0) with itConds := [.eq] }
    Admitted (.vmsrT1 13) s ∧ condPassed (.vmsrT1 13) s = false ∧
      (accessCheck s.env).fault? = some .undefined :=
  ⟨⟨rfl, rfl, by decide, fun _ _ => rfl⟩, by decide, by decide⟩
/-- `UnadmittedAccessRefused`: its four clauses. -/
theorem test_witness_UnadmittedAccessRefused :
    (Instr.vmrsA1 0 15).wf = true ∧ (Instr.vmrsA1 0 15).rt = 15#4 ∧ (Instr.vmsrT1 13).set = .t32 ∧
    (Instr.vmsrT1 13).rt = 13#4 ∧ ({ cfgA .hardwired with t32SpOk := false } : Params).t32SpOk = false ∧
    ({ cfgA .hardwired with t32SpOk := false } : Params).haveFp = true ∧
    ({ cfgA .hardwired with haveFp := false } : Params).haveFp = false ∧
    (pending { cfgA .hardwired with haveFp := false } (base .el1) .reset).events = [.reset] := by decide
/-- The field statements, `ReadAfterWrite`, `ReadAfterReset` and `ResetStep`: every configuration and both kinds of
reserved bit exist; a position is reserved at each end of each range, and bit 29 in CFG_A only. -/
theorem test_witness_configurations :
    [cfgA, cfgB, cfgC, cfgD].map (fun c => cfgName (c .hardwired)) = [.cfgA, .cfgB, .cfgC, .cfgD] ∧
    [cfgA, cfgB, cfgC, cfgD].map (fun c => cfgName (c .stored)) = [.cfgA, .cfgB, .cfgC, .cfgD] ∧
    (cfgA .stored).res = .stored ∧ (cfgA .hardwired).res = .hardwired ∧
    [28, 27, 25, 11, 10, 8, 6, 5].all (isReserved (cfgD .stored)) = true ∧
    [31, 30, 29, 26, 7, 4, 0, 32].any (isReserved (cfgD .stored)) = false ∧
    isReserved (cfgA .stored) 29 = true ∧
    (cfgD .stored).trapFpexc = true ∧ (cfgB .stored).trapFpexc = false ∧
    (0x6000009F#32).getLsbD 29 = true ∧ (written (cfgD .hardwired) 0#32).tfv = .u ∧
    ({ written (cfgD .hardwired) 0#32 with tfv := .one } : Fpexc).tfv = .one := by decide
/-- `EnFieldRule`, `DexFieldRule`, `TfvFieldRule`, `FlagFieldsRule`: the recordings they speak of exist. -/
theorem test_witness_FieldRecordings :
    (fpexcRecord (cfgD .hardwired) (written (cfgD .hardwired) 0#32) (.strideLen .vmul)).isSome = true ∧
    (fpexcRecord (cfgD .hardwired) (written (cfgD .hardwired) 0#32) (trap 0x04)).isSome = true ∧
    (fpexcRecord (cfgD .hardwired) (written (cfgD .hardwired) 0#32) .unallocated).isSome = true ∧
    (⟨false, false, false, true, false, false⟩ : PerException Bool).get .overflow = true ∧
    causeAdmissible recordEnv (trap 0x9F) = true := by decide
/-- `EnFieldRule`, last clause, `FpAccessNeedsEn` and `FpAccessLeavesStateAlone`: EN 0 and EN 1, an access pending, none
unsynchronised. -/
theorem test_witness_FpAccess :
    let s := pending (cfgA .hardwired) (base .el1) (.fpAccess (.d 31) false)
    let s' : State := { s with fpexc := written (cfgA .hardwired) 0x40000000#32 }
    s.params.haveFp = true ∧ s.staleEn = none ∧ s.env.el ≠ .el0 ∧ s.events = [.fpAccess (.d 31) false] ∧
    s.fpexc.en = .zero ∧ s'.fpexc.en = .one ∧
    effectiveEn s.params s.env (enSeen s) (s.drawn 1) = false ∧
    effectiveEn s'.params s'.env (enSeen s') (s'.drawn 1) = true := by decide
/-- The same at EL0 where the Note of R152 does not apply (N6) and where it does (N2), with EN 0, and an access that another
control stops. -/
theorem test_witness_FpAccessEl0 :
    let s := pending (cfgA .hardwired) (base .el0) (.fpAccess .fpscr true)
    let s' : State := { s with env := { base .el0 with el1AArch32 := false } }
    s.fpexc.en = .zero ∧ s.env.el1AArch32 = true ∧ s.env.el2AArch32 = true ∧ s.events = [.fpAccess .fpscr true] ∧
    effectiveEn s'.params s'.env (enSeen s') (s'.drawn 1) = true := by decide
/-- `WriteBackPreserves`: I12's cells in CFG_D, and CFG_A with stored bits. -/
theorem test_witness_WriteBackPreserves :
    let f : Fpexc := { written (cfgD .hardwired) 0x60000004#32 with tfv := .one }
    let g := written (cfgA .stored) 0x40000700#32
    fpexcWf (cfgD .hardwired) f = true ∧ f.en ≠ .u ∧ f.dex = .one ∧ f.tfv = .one ∧ f.resv.unknown = 0 ∧
    f.flags.overflow = .one ∧ f.flags.inexact = .zero ∧ f.flags.invalidOperation = .zero ∧
    f.flags.inputDenormal = .zero ∧ f.flags.underflow = .zero ∧ f.flags.divideByZero = .zero ∧
    fpexcWf (cfgA .stored) g = true ∧ g.en = .one ∧ g.dex = .zero ∧ g.resv.unknown = 0 ∧
    (cfgA .stored).trapFpexc = false ∧ g.flags = ⟨.zero, .zero, .zero, .zero, .zero, .zero⟩ := by decide
/-- `NewInputs` and `InputsAreNotWritten`: inputs that differ in `CPACR.cp10` and the Exception level; the former
arrives. -/
theorem test_witness_NewInputs :
    let e : Env := { base .el3 with cpacrCp10 := 0b00#2 }
    (pending (cfgA .hardwired) (base .el1) (.inputs e [.eq])).params.haveFp = true ∧
    (pending (cfgA .hardwired) (base .el1) (.inputs e [.eq])).events = .inputs e [.eq] :: [] ∧
    (nextOf (step (pending (cfgA .hardwired) (base .el1) (.inputs e [.eq])))).map
      (fun s => (s.env, s.itConds)) = some ({ base .el1 with cpacrCp10 := 0b00#2 }, [.eq]) := by decide
/-- `ResetStep`: a pending reset. -/
theorem test_witness_ResetStep :
    (pending (cfgD .stored) (base .el1) .reset).params.haveFp = true ∧
    (pending (cfgD .stored) (base .el1) .reset).events = .reset :: [] := by decide
/-- `RecordUndefinedCause`: DEX 0 and DEX 1 before, both causes. -/
theorem test_witness_RecordUndefinedCause :
    (pending (cfgD .hardwired) recordEnv (.syncException true .unallocated)).events =
      .syncException true .unallocated :: [] ∧
    (pending (cfgC .hardwired) recordEnv (.syncException true .otherSync)).events =
      .syncException true .otherSync :: [] ∧
    (written (cfgD .hardwired) 0#32).dex = .zero ∧ (written (cfgD .hardwired) 0x20000000#32).dex ≠ .zero := by decide
/-- `RecordStrideLenCause`: its three clauses. -/
theorem test_witness_RecordStrideLenCause :
    (pending (cfgD .hardwired) recordEnv (.syncException true (.strideLen .vsub))).events =
      .syncException true (.strideLen .vsub) :: [] ∧
    (cfgA .hardwired).strideLenRaz = true ∧ (cfgD .hardwired).strideLenRaz = false ∧ recordEnv.fpscrStride ≠ 0 ∧
    (base .el1).fpscrStride = 0 ∧ (base .el1).fpscrLen = 0 := by decide
/-- `RecordTrappedCause`: a refused configuration, and an admissible set in CFG_D: Input Denormal and Underflow of a
half-precision instruction; Overflow of another. -/
theorem test_witness_RecordTrappedCause :
    (cfgB .hardwired).trapFpexc = false ∧
    (nextOf (step (pending (cfgD .hardwired) recordEnv (.syncException true (trap 0x88))))).map
      (fun s => (s.fpexc.dex, s.fpexc.tfv, s.fpexc.flags.underflow, s.fpexc.flags.overflow)) =
      some (.one, .one, .one, .zero) ∧
    (nextOf (step (pending (cfgD .hardwired) recordEnv (.syncException true
      (.trappedFp false false ⟨false, false, false, true, false, false⟩))))).isSome = true := by decide
/-- The premises of `RecordTrappedCause` on the set, for the set of Input Denormal alone. -/
theorem test_witness_RecordTrappedSet :
    let t : PerException Bool := ⟨true, false, false, false, false, false⟩
    (∃ x, t.get x = true) ∧ (∀ x, t.get x = true → recordEnv.fpscrEnables.get x = true) ∧
    (t.inputDenormal = true → recordEnv.fpscrFz = true ∧ false = false) ∧
    (t.underflow = true → if false = true then recordEnv.fpscrFz16 = false else recordEnv.fpscrFz = false) :=
  ⟨⟨.inputDenormal, rfl⟩, fun x _ => by cases x <;> rfl, fun _ => ⟨rfl, rfl⟩, nofun⟩
/-- `DenormalExcludesUnderflow`: Input Denormal of an instruction that is not half-precision is recorded. -/
theorem test_witness_DenormalExcludesUnderflow :
    ∃ s', step (pending (cfgD .hardwired) recordEnv (.syncException true
      (.trappedFp false false ⟨true, false, false, false, false, false⟩))) = .next s' := ⟨_, rfl⟩
/-- `HandlerReadsTheCause`: DEX and the flags 0, and each cause recorded. -/
theorem test_witness_HandlerReadsTheCause :
    (cfgD .hardwired).res = .hardwired ∧ (written (cfgD .hardwired) 0#32).dex = .zero ∧
    (written (cfgD .hardwired) 0#32).flags = ⟨.zero, .zero, .zero, .zero, .zero, .zero⟩ ∧
    [Cause.unallocated, .otherSync, .strideLen .vabs, trap 0x01].all
      (fun c => (fpexcRecord (cfgD .hardwired) (written (cfgD .hardwired) 0#32) c).isSome) = true := by decide
/-- `NothingRecorded`: an exception outside the encoding space, and a recording in CFG_A. -/
theorem test_witness_NothingRecorded :
    (pending (cfgA .hardwired) (base .el1) (.syncException false .otherSync)).events =
      .syncException false .otherSync :: [] ∧
    cfgName (cfgA .hardwired) = .cfgA ∧
    (nextOf (step (pending (cfgA .hardwired) (base .el1) (.syncException true .otherSync)))).isSome = true := by decide

/-- The start of section 2.8 with writes not yet synchronised (R178). -/
def unsynced : State := start { cfgA .hardwired with sync := .needsSync } (base .el1)

/-- `WriteSeenByNextAccess` and `OnlyPermittedVmsrWritesFpexc`: a permitted VMSR that changes EN. -/
theorem test_witness_WriteSeenByNextAccess :
    (start (cfgA .hardwired) (base .el1)).wf = true ∧ (start (cfgA .hardwired) (base .el1)).params.sync = .immediate ∧
    condPassed (.vmsrA1 14 0) (start (cfgA .hardwired) (base .el1)) = true ∧
    ∃ s', exec (.vmsrA1 14 0) (start (cfgA .hardwired) (base .el1)) = .next s' ∧
      s'.fpexc ≠ (start (cfgA .hardwired) (base .el1)).fpexc :=
  ⟨by decide, rfl, by decide, _, rfl, by decide⟩
/-- `UnsynchronisedEnIsOldOrNew`: a VMSR under `needs_sync`, and the context-synchronisation event after it. -/
theorem test_witness_UnsynchronisedEnIsOldOrNew :
    unsynced.params.sync = .needsSync ∧ unsynced.staleEn = none ∧ condPassed (.vmsrT1 0) unsynced = true ∧
    ∃ s', exec (.vmsrT1 0) unsynced = .next s' ∧ enSeen s' = (if Config.draw 0 then .zero else .one) ∧
      ∃ ev, step { s' with events := [.contextSync] } = .next ev ∧ enSeen ev = .one :=
  ⟨rfl, rfl, by decide, _, rfl, rfl, _, rfl, rfl⟩
/-- `StepKeepsWf`, `InputsAreNotWritten`, `DrawsAreFresh`: a state that keeps the invariant and a step of it by an
instruction. -/
theorem test_witness_StepKeepsWf :
    (holding .a32 0xEEF81A10#32).wf = true ∧ ∃ s', step (holding .a32 0xEEF81A10#32) = .next s' ∧ s'.draws = 32 :=
  ⟨by decide, _, rfl, rfl⟩
/-- `El0CannotChangeFpexc`: an EL0 state that faults (P3) and one that is refused (the no-op is
`test_step_condition_fails_el0`). -/
theorem test_witness_El0CannotChangeFpexc :
    let s : State := { holding .a32 0xEEF81A10#32 with env := base .el0 }
    let bare : State := start (cfgA .hardwired) (base .el0)
    s.env.el = .el0 ∧ s.events = [] ∧ faultOf (step s) = some .undefined ∧ bare.env.el = .el0 ∧ bare.events = [] ∧
    refusalOf (step bare) = some .noProgramText ∧
    faultOf (step { s with events := [.instruction, .reset] }) = some .undefined := by decide

end Sys2Proof.Tests
end

/-! SUPPORT. What a read returns at the positions of EX, EN, DEX and TFV, which bits of a written word count, what the two
defined causes record, and when EN counts as 1. -/

section
namespace Sys2Proof.Machine

/-! ### The status bits of a read (R52) -/

section
variable (p : Params) (f : Fpexc) (d : Nat → Bool)

theorem fpexcRead_ex : (fpexcRead p f d).getLsbD 31 = false := getLsbD_fpexcRead p f d (by decide)

theorem fpexcRead_en : (fpexcRead p f d).getLsbD 30 = f.en.known (d 30) := getLsbD_fpexcRead p f d (by decide)

theorem fpexcRead_dex : (fpexcRead p f d).getLsbD 29 = readDex p f d := getLsbD_fpexcRead p f d (by decide)

theorem fpexcRead_tfv : (fpexcRead p f d).getLsbD 26 = readTfv p f d := getLsbD_fpexcRead p f d (by decide)

end

/-- Outside CFG_D, TFV reads as a fixed bit that says whether the implementation traps: 1 in CFG_C, 0 in CFG_A and CFG_B. -/
theorem readTfv_of_not_cfgD {p : Params} (f : Fpexc) (d : Nat → Bool) (h : isCfgD p = false) :
    readTfv p f d = p.trapFpexc := by
  cases ht : p.trapFpexc with
  | false => simp [readTfv, ht]
  | true =>
    have hz : p.strideLenRaz = true := by simpa [isCfgD, ht] using h
    simp [readTfv, ht, hz]

/-- In CFG_D, TFV reads as its cell where the same read's DEX is 1, and as a draw where it is 0 (R51). -/
theorem readTfv_of_cfgD {p : Params} (f : Fpexc) (d : Nat → Bool) (h : isCfgD p = true) :
    readTfv p f d = if readDex p f d = true then f.tfv.known (d 26) else d 26 := by
  obtain ⟨ht, hz⟩ : p.trapFpexc = true ∧ p.strideLenRaz = false := by simpa [isCfgD] using h
  simp [readTfv, ht, hz]

/-- CFG_A and CFG_B are the configurations without trapping. -/
theorem cfgName_eq_cfgA_or_cfgB {p : Params} : cfgName p = .cfgA ∨ cfgName p = .cfgB ↔ p.trapFpexc = false := by
  rw [cfgName_eq_cfgA, cfgName_eq_cfgB]
  cases hz : p.strideLenRaz <;> simp [isCfgA, hz]

/-- Outside CFG_D, an implementation traps exactly in CFG_C. -/
theorem cfgName_eq_cfgC_of_not_cfgD {p : Params} (h : isCfgD p = false) :
    cfgName p = .cfgC ↔ p.trapFpexc = true := by
  rw [cfgName_eq_cfgC, and_iff_left_iff_imp]
  intro ht
  simpa [isCfgD, ht] using h

/-! ### The bits of a written word that count (R54) -/

/-- Bits 31 and 26 are no reserved positions. -/
theorem resvMask_status_bit (p : Params) {n : Nat} (h : n = 31 ∨ n = 26) : (resvMask p).getLsbD n = false := by
  rw [getLsbD_resvMask]
  obtain rfl | rfl := h <;> simp [isReserved]

/-- A write depends on no bit of the word but those other than 31 and 26 (R36, R41). -/
theorem fpexcWrite_congr (p : Params) (f : Fpexc) {w w' : Word}
    (h : ∀ n, n ≠ 31 → n ≠ 26 → w.getLsbD n = w'.getLsbD n) : fpexcWrite p f w = fpexcWrite p f w' := by
  have hmask : w &&& resvMask p = w' &&& resvMask p := by
    refine BitVec.eq_of_getLsbD_eq fun n _ => ?_
    rw [BitVec.getLsbD_and, BitVec.getLsbD_and]
    by_cases hn : n = 31 ∨ n = 26
    · rw [resvMask_status_bit p hn, Bool.and_false, Bool.and_false]
    · obtain ⟨h31, h26⟩ := not_or.mp hn
      rw [h n h31 h26]
  simp (disch := decide) only [fpexcWrite, flagsOfWord, hmask, h]

/-- Flipping one bit of a word leaves every other bit. -/
theorem getLsbD_xor_twoPow_of_ne (w : Word) {k n : Nat} (h : n ≠ k) :
    (w ^^^ BitVec.twoPow 32 k).getLsbD n = w.getLsbD n := by
  simp [BitVec.getLsbD_twoPow, h.symm]

/-- A write ignores bits 31 and 26 of the word (R36, R41). -/
theorem fpexcWrite_flip (p : Params) (f : Fpexc) (w : Word) {k : Nat} (h : k = 31 ∨ k = 26) :
    fpexcWrite p f (w ^^^ BitVec.twoPow 32 k) = fpexcWrite p f w :=
  fpexcWrite_congr p f fun n h31 h26 => getLsbD_xor_twoPow_of_ne w (by omega)

/-! ### What a recording and a reset leave (R69, R156) -/

@[simp] theorem get_flagsUnknown (x : FpException) : flagsUnknown.get x = .u := by cases x <;> rfl

/-- A flag after trapped exceptions (R156, R159). -/
@[simp] theorem get_recordFlags (old : PerException Cell) (t : PerException Bool) (x : FpException) :
    (recordFlags old t).get x = if t.get x = true then .one else (old.get x).keep0 := by
  cases x <;> rfl

/-- The recording of an instruction stopped by Stride or Len (R156). -/
theorem fpexcRecord_strideLen {p : Params} {f f' : Fpexc} {op : ShortVectorOp}
    (h : fpexcRecord p f (.strideLen op) = some f') :
    p.strideLenRaz = false ∧ f' = { f with
      dex := .one
      tfv := if isCfgD p then .zero else f.tfv
      flags := if p.trapFpexc then flagsUnknown else f.flags } := by
  simp only [fpexcRecord] at h
  split at h
  · cases h
  · rename_i hz
    cases h
    exact ⟨by simpa using hz, rfl⟩

/-- The recording of trapped floating-point exceptions (R156). -/
theorem fpexcRecord_trappedFp {p : Params} {f f' : Fpexc} {half flush : Bool} {t : PerException Bool}
    (h : fpexcRecord p f (.trappedFp half flush t) = some f') :
    p.trapFpexc = true ∧ f' = { f with
      dex := .one
      tfv := if isCfgD p then .one else f.tfv
      flags := recordFlags f.flags t } := by
  simp only [fpexcRecord] at h
  split at h
  · rename_i ht
    cases h
    exact ⟨ht, rfl⟩
  · cases h

/-! ### The effective EN and an access that it decides (R150, R152) -/

/-- EN counts as 1 exactly where the Note of R152 says so or where the bit itself is 1. -/
theorem effectiveEn_eq_true {p : Params} {e : Env} {en : Cell} {d : Bool} :
    effectiveEn p e en d = true ↔
      (e.el = .el0 ∧ (e.el1AArch32 = false ∨
        (e.el2AArch32 = false ∧ e.el2Enabled = true ∧ e.hcrEl2Tge = true ∧
          (e.hcrEl2Rw = true ∨ p.el0Tge = .asIfOne)))) ∨
      en.known d = true := by
  by_cases hl : e.el = .el0
  · cases h1 : e.el1AArch32
    · simp [effectiveEn, hl, h1]
    · cases hrw : e.hcrEl2Rw <;> simp [effectiveEn, hl, h1, hrw, and_assoc]
  · simp [effectiveEn, hl]

/-- Without an unsynchronised write an access sees `S.EN` (R178). -/
theorem enSeen_of_synchronised {s : State} (h : s.staleEn = none) : enSeen s = s.fpexc.en := by
  simp [enSeen, h]

/-- A pending floating-point access is `Undefined` where the effective EN is 0, and otherwise goes on unless another
control stops it (R150, R154). -/
theorem step_fpAccess {s : State} {reg : FpReg} {other : Bool} {rest : List Event} (hf : s.params.haveFp = true)
    (he : s.events = .fpAccess reg other :: rest) :
    step s =
      if effectiveEn s.params s.env (enSeen s) (s.drawn 1) = true then
        if other = true then .refused .otherControl else .next (State.takeDraws { s with events := rest } 2)
      else .fault .undefined := by
  rw [step_event he hf]
  change stepFpAccess reg other _ = _
  have hu : fpUndefinedByEn { s with events := rest } =
      !effectiveEn s.params s.env (enSeen s) (s.drawn 1) := rfl
  cases h : effectiveEn s.params s.env (enSeen s) (s.drawn 1) <;> simp [stepFpAccess, hu, h, takeException]

/-! ### The obligations -/

/-- Settles O23: bit 31 has no cell, so a read has 0 there and a write does not look at it. -/
theorem exFieldRule : Obligations.ExFieldRule := by
  intro p f d w
  have hbit : (0x80000000#32 : Word) = BitVec.twoPow 32 31 := by decide
  rw [hbit]
  exact ⟨fpexcRead_ex p f d, fpexcWrite_flip p f w (.inl rfl), fpexcRead_ex p _ d⟩

/-- Settles O24: the register's rules for EN, and for a pending access the effective EN. -/
theorem enFieldRule : Obligations.EnFieldRule := by
  refine ⟨fpexcRead_en, fun _ _ _ => rfl, fun _ _ _ _ hr => ?_, fun _ => rfl, ?_⟩
  · obtain ⟨hen, -⟩ := fpexcRecord_keeps hr
    exact hen
  · intro s reg rest hf hstale he
    rw [step_fpAccess hf he, enSeen_of_synchronised hstale]
    constructor
    · intro hen hnote
      have hoff : ¬ effectiveEn s.params s.env s.fpexc.en (s.drawn 1) = true := by
        simpa [effectiveEn_eq_true, hen] using hnote
      rw [if_neg hoff]
    · intro hen
      have hon : effectiveEn s.params s.env s.fpexc.en (s.drawn 1) = true :=
        effectiveEn_eq_true.mpr (.inr (by rw [hen]; rfl))
      rw [if_pos hon]
      exact ⟨_, rfl⟩

/-- Settles O26: outside CFG_D the bit is fixed; in CFG_D it is the cell, which the recordings set and no write does. -/
theorem tfvFieldRule : Obligations.TfvFieldRule := by
  intro p f d w
  have hfixed : ∀ g, isCfgD p = false → (fpexcRead p g d).getLsbD 26 = p.trapFpexc := fun g h =>
    (fpexcRead_tfv p g d).trans (readTfv_of_not_cfgD g d h)
  have hbit : (0x04000000#32 : Word) = BitVec.twoPow 32 26 := by decide
  rw [hbit]
  refine ⟨?_, ?_, ?_, rfl, fpexcWrite_flip p f w (.inr rfl), ?_, ?_, ?_, ?_⟩
  · intro h
    have ht := cfgName_eq_cfgA_or_cfgB.mp h
    rw [hfixed f (not_isCfgD_of_not_trap ht), ht]
  · intro h
    obtain ⟨ht, hz⟩ := cfgName_eq_cfgC.mp h
    rw [hfixed f (by simp [isCfgD, hz]), ht]
  · intro h
    rw [fpexcRead_tfv, fpexcRead_dex]
    exact readTfv_of_cfgD f d (cfgName_eq_cfgD.mp h)
  · intro h
    have hD := cfgName_eq_cfgD.mp h
    refine ⟨by simp [fpexcReset, hD], fun op f' hr => ?_, fun half flush t f' hr => ?_⟩
    · obtain ⟨-, rfl⟩ := fpexcRecord_strideLen hr
      simp [hD]
    · obtain ⟨-, rfl⟩ := fpexcRecord_trappedFp hr
      simp [hD]
  · intro ht op f' hr x
    obtain ⟨-, rfl⟩ := fpexcRecord_strideLen hr
    simp [ht]
  · intro half flush t f' hr x hx
    obtain ⟨-, rfl⟩ := fpexcRecord_trappedFp hr
    simp [hx]
  · intro h
    have hD : isCfgD p = false := by simpa [cfgName_eq_cfgD] using h
    rw [hfixed _ hD]
    simp [cfgName_eq_cfgC_of_not_cfgD hD]

end Sys2Proof.Machine
end

/-! SUPPORT. The access check as R122 writes it: its abbreviations, and one equation per Exception level. -/

section
namespace Sys2Proof.Machine

/-! ### The abbreviations of the check (R122) -/

@[simp] theorem nsDeny_eq_true {e : Env} :
    nsDeny e = true ↔ e.el3AArch32 = true ∧ e.scrNs = true ∧ e.nsacrCp10 = false := by
  simp [nsDeny, and_assoc]

/-- `'x0'` stands for the two values whose bit 0 is 0 (R16). -/
@[simp] theorem fpenX0_eq_true {e : Env} : fpenX0 e = true ↔ e.cptrEl2Fpen = 0b00#2 ∨ e.cptrEl2Fpen = 0b10#2 := by
  have bit0_clear : ∀ v : BitVec 2, (!v.getLsbD 0) = true ↔ v = 0b00#2 ∨ v = 0b10#2 := by decide
  exact bit0_clear e.cptrEl2Fpen

@[simp] theorem el2A64_eq_true {e : Env} : el2A64 e = true ↔ e.el2Enabled = true ∧ e.el2AArch32 = false := by
  simp [el2A64]

@[simp] theorem el2A32_eq_true {e : Env} : el2A32 e = true ↔ e.el2Enabled = true ∧ e.el2AArch32 = true := by
  simp [el2A32]

/-! ### The check at each Exception level (R122) -/

section
variable {e : Env}

theorem accessCheck_el0 (h : e.el = .el0) : accessCheck e = .undefined := by
  simp only [accessCheck, accessArm, h, armResult]

theorem accessCheck_el1 (h : e.el = .el1) :
    accessCheck e =
      if e.el1AArch32 = true ∧ (nsDeny e = true ∨ e.cpacrCp10 = 0b00#2) then .undefined
      else if el2A64 e = true ∧ e.hcrEl2E2h = false ∧ e.cptrEl2Tfp = true then .trapA64 .el2 0x07
      else if el2A64 e = true ∧ e.hcrEl2E2h = true ∧ fpenX0 e = true then .trapA64 .el2 0x07
      else if el2A32 e = true ∧ (nsDeny e = true ∨ e.hcptrTcp10 = true) then .trapHyp 0x08
      else if el2A64 e = true ∧ e.hcrEl2Tid3 = true then .trapA64 .el2 0x08
      else if el2A32 e = true ∧ e.hcrTid3 = true then .trapHyp 0x08
      else .allow := by
  simp only [accessCheck, accessArm, h, apply_ite armResult]
  simp [armResult, and_assoc]

theorem accessCheck_el2 (h : e.el = .el2) :
    accessCheck e =
      if e.hcrEl2E2h = false ∧ e.cptrEl2Tfp = true then .trapA64 .el2 0x07
      else if e.hcrEl2E2h = true ∧ fpenX0 e = true then .trapA64 .el2 0x07
      else if el2A32 e = true ∧ (nsDeny e = true ∨ e.hcptrTcp10 = true) then .trapHyp 0x00
      else .allow := by
  simp only [accessCheck, accessArm, h, apply_ite armResult]
  simp [armResult]

theorem accessCheck_el3 (h : e.el = .el3) :
    accessCheck e = if e.cpacrCp10 = 0b00#2 then .undefined else .allow := by
  simp only [accessCheck, accessArm, h, apply_ite armResult]
  simp [armResult]

end

/-! ### The obligation -/

/-- Settles O9: at each Exception level the check is that level's branch of the listing, with the abbreviations written
out. -/
theorem accessCheckFollowsListing : Obligations.AccessCheckFollowsListing := by
  intro e
  cases h : e.el with
  | el0 => simp [accessCheck_el0 h]
  | el1 => simp [accessCheck_el1 h, and_assoc]
  | el2 => simp [accessCheck_el2 h, and_assoc]
  | el3 => simp [accessCheck_el3 h]

end Sys2Proof.Machine
end

/-! SUPPORT. The table of R143: which arms answer each outcome of the check, and the fault an access ends with. -/

section
namespace Sys2Proof.Machine

/-! ### The arms of each outcome (R143) -/

section
variable {a : Arm}

theorem armResult_eq_undefined : armResult a = .undefined ↔ a = .e0p1 ∨ a = .e1p1 ∨ a = .e3p1 := by
  cases a <;> simp [armResult]

theorem armResult_eq_trapA64_07 :
    armResult a = .trapA64 .el2 0x07 ↔ a = .e1p2 ∨ a = .e1p3 ∨ a = .e2p1 ∨ a = .e2p2 := by
  cases a <;> simp [armResult]

theorem armResult_eq_trapA64_08 : armResult a = .trapA64 .el2 0x08 ↔ a = .e1p5 := by
  cases a <;> simp [armResult]

theorem armResult_eq_trapHyp_08 : armResult a = .trapHyp 0x08 ↔ a = .e1p4 ∨ a = .e1p6 := by
  cases a <;> simp [armResult]

theorem armResult_eq_trapHyp_00 : armResult a = .trapHyp 0x00 ↔ a = .e2p3 := by
  cases a <;> simp [armResult]

/-- No arm answers anything but `Allow` and the five rows of R143. -/
theorem armResult_range (a : Arm) :
    armResult a = .allow ∨ armResult a = .undefined ∨ armResult a = .trapA64 .el2 0x07 ∨
      armResult a = .trapA64 .el2 0x08 ∨ armResult a = .trapHyp 0x08 ∨ armResult a = .trapHyp 0x00 := by
  cases a <;> simp [armResult]

end

/-! ### The outcome of an access that the check stops (R140 to R143) -/

/-- An admitted access whose condition holds ends with the check's fault, in all four forms. -/
theorem exec_eq_fault_of_check {i : Instr} {s : State} {r : Fault} (ha : Admitted i s) (hp : condPassed i s = true)
    (hr : (accessCheck s.env).fault? = some r) : exec i s = .fault r :=
  (exec_passed ha hp).trans (guarded_eq_fault.mpr hr)

/-! ### The obligations -/

/-- Settles O10: the rows of R143's table are the arms of each outcome, and the step ends with the check's own fault. -/
theorem outcomeCodesAndArms : Obligations.OutcomeCodesAndArms := by
  constructor
  · intro e
    exact ⟨armResult_eq_trapA64_07, armResult_eq_trapA64_08, armResult_eq_trapHyp_08, armResult_eq_trapHyp_00,
      armResult_eq_undefined, armResult_range (accessArm e)⟩
  · intro i s ha hp
    refine ⟨fun hc => ?_, fun target code hc => ?_, fun code hc => ?_⟩ <;>
      exact exec_eq_fault_of_check ha hp (by rw [hc]; rfl)

/-- Settles O40: the Note of R152 enters the effective EN alone; a read returns the cell. -/
theorem effectiveEnNote : Obligations.EffectiveEnNote := by
  intro p e f d
  exact ⟨effectiveEn_eq_true, fpexcRead_en p f d⟩

end Sys2Proof.Machine
end

/-! SUPPORT. The cells after a reset, the bits that read a fixed value whatever the cells hold, and the reset step. -/

section
namespace Sys2Proof.Machine

/-! ### The bits of a read that have a fixed value (R34, R41, R51, R53) -/

section
variable {p : Params}

/-- Outside CFG_D, bit 26 of a read is the configuration's own TFV (R41). -/
theorem fpexcRead_tfv_of_not_cfgD (f : Fpexc) (d : Nat → Bool) (h : cfgName p ≠ .cfgD) :
    (fpexcRead p f d).getLsbD 26 = decide (cfgName p = .cfgC) := by
  have hD : isCfgD p = false := by simpa [cfgName_eq_cfgD] using h
  rw [fpexcRead_tfv, readTfv_of_not_cfgD f d hD]
  simp [cfgName_eq_cfgC_of_not_cfgD hD]

/-- The position of a flag in a read holds that flag (R31, R52). -/
theorem fpexcRead_flag (f : Fpexc) (d : Nat → Bool) (x : FpException) :
    (fpexcRead p f d).getLsbD (flagPos x) = readFlag p f d (f.flags.get x) (flagPos x) := by
  cases x <;> exact getLsbD_fpexcRead p f d (by decide)

/-- Without trapping a flag reads as 0. -/
theorem readFlag_of_not_trap (f : Fpexc) (d : Nat → Bool) (c : Cell) (n : Nat) (h : p.trapFpexc = false) :
    readFlag p f d c n = false := by
  simp [readFlag, h]

/-- A reserved position in a read is R52's `res(n, f)`, with f = 1 for bits 10:8 and 0 elsewhere. -/
theorem fpexcRead_reserved (f : Fpexc) (d : Nat → Bool) {n : Nat} (hn : isReserved p n = true) :
    (fpexcRead p f d).getLsbD n = readResv p f d n (decide (8 ≤ n ∧ n ≤ 10)) := by
  rw [getLsbD_fpexcRead p f d (lt_of_isReserved hn), fpexcReadBit_reserved f d hn]

/-- A hardwired reserved bit reads its fixed value (R53). -/
theorem readResv_of_hardwired (f : Fpexc) (d : Nat → Bool) (n : Nat) (fixed : Bool) (h : p.res = .hardwired) :
    readResv p f d n fixed = fixed := by
  simp [readResv, h]

/-! ### The cells after a reset (R69, R170) -/

theorem fpexcReset_dex (h : cfgName p ≠ .cfgA) : (fpexcReset p).dex = .u := by
  have hA : isCfgA p = false := by simpa [cfgName_eq_cfgA] using h
  simp [fpexcReset, hA]

theorem fpexcReset_tfv (h : cfgName p = .cfgD) : (fpexcReset p).tfv = .u := by
  simp [fpexcReset, cfgName_eq_cfgD.mp h]

theorem fpexcReset_flag (h : p.trapFpexc = true) (x : FpException) : (fpexcReset p).flags.get x = .u := by
  simp [fpexcReset, h]

theorem fpexcReset_resvCell {n : Nat} (hr : p.res = .stored) (hn : isReserved p n = true) :
    resvCell (fpexcReset p).resv n = .u := by
  have hbit : (resvMask p).getLsbD n = true := by
    simp [getLsbD_resvMask, hr, hn, lt_of_isReserved hn]
  exact if_pos hbit

end

/-- A pending reset goes on, with FPEXC's reset cells (R170). -/
theorem step_reset {s : State} {rest : List Event} (hf : s.params.haveFp = true) (he : s.events = .reset :: rest) :
    ∃ s', step s = .next s' ∧ s'.fpexc = fpexcReset s.params :=
  ⟨_, step_event he hf, rfl⟩

/-! ### The obligation -/

/-- Settles O31: the step leaves the reset cells, and the fixed bits read their value whatever the cells hold. -/
theorem resetStep : Obligations.ResetStep := by
  intro s rest hf he
  obtain ⟨s', hstep, hcells⟩ := step_reset hf he
  refine ⟨s', hstep, ?_⟩
  rw [hcells]
  refine ⟨rfl, fpexcReset_dex, fpexcReset_tfv, fpexcReset_flag, fun hr n => fpexcReset_resvCell hr, fun d => ?_⟩
  refine ⟨fpexcRead_ex _ _ d, fpexcRead_tfv_of_not_cfgD _ d, fun ht x => ?_, fun hr n hn => ?_⟩
  · rw [fpexcRead_flag, readFlag_of_not_trap _ d _ _ ht]
  · rw [fpexcRead_reserved _ d hn, readResv_of_hardwired _ d n _ hr]

end Sys2Proof.Machine
end

/-! SUPPORT. The decoder and the encoder: the words of the four forms as section 2.10 of the vectors writes them, what
the decoder of words answers, and the decoder of bytes as the decoder of the word that the first four bytes make. -/

section
namespace Sys2Proof

/-! ### The words of the four forms (R105 to R108) -/

theorem encodeWord_vmrsA1 (cond : BitVec 4) (t : RegNum) :
    encodeWord (.vmrsA1 cond t) = (cond.setWidth 32 <<< 28) ||| 0x0EF80A10#32 ||| (t.setWidth 32 <<< 12) := by
  revert cond t; decide

theorem encodeWord_vmsrA1 (cond : BitVec 4) (t : RegNum) :
    encodeWord (.vmsrA1 cond t) = (cond.setWidth 32 <<< 28) ||| 0x0EE80A10#32 ||| (t.setWidth 32 <<< 12) := by
  revert cond t; decide

theorem encodeWord_vmrsT1 (t : RegNum) : encodeWord (.vmrsT1 t) = 0xEEF80A10#32 ||| (t.setWidth 32 <<< 12) := by
  revert t; decide

theorem encodeWord_vmsrT1 (t : RegNum) : encodeWord (.vmsrT1 t) = 0xEEE80A10#32 ||| (t.setWidth 32 <<< 12) := by
  revert t; decide

/-- The halfwords of the T32 forms, as R107 and R108 give them. -/
theorem encodeWord_t1_halves (t : RegNum) :
    encodeWord (.vmrsT1 t) = 0xEEF8#16 ++ (0x0A10#16 ||| (t.setWidth 16 <<< 12)) ∧
      encodeWord (.vmsrT1 t) = 0xEEE8#16 ++ (0x0A10#16 ||| (t.setWidth 16 <<< 12)) := by
  revert t; decide

/-! ### The decoder of words (R105 to R112) -/

/-- The operand fields of a well-formed instruction are read back from its word. -/
theorem decodeWord_encodeWord {i : Instr} (h : i.wf = true) : decodeWord i.set (encodeWord i) = some i := by
  cases i with
  | vmrsA1 cond t => revert cond t; decide
  | vmsrA1 cond t => revert cond t; decide
  | vmrsT1 t => revert t; decide
  | vmsrT1 t => revert t; decide

/-- A word that decodes is the word of the well-formed instruction it decodes to: the mask of its row and its operand
fields make it up. -/
theorem encodeWord_of_decodeWord {set : InstrSet} {w : Word} {i : Instr} (h : decodeWord set w = some i) :
    i.wf = true ∧ i.set = set ∧ encodeWord i = w := by
  cases set with
  | a32 =>
    simp only [decodeWord] at h
    split at h
    · cases h
    · rename_i hcond
      split at h
      · rename_i hmask
        cases h
        exact ⟨by simpa [Instr.wf] using hcond, rfl, by rw [encodeWord_vmrsA1, ← word_of_a32_fields hmask]⟩
      · split at h
        · rename_i hmask
          cases h
          exact ⟨by simpa [Instr.wf] using hcond, rfl, by rw [encodeWord_vmsrA1, ← word_of_a32_fields hmask]⟩
        · cases h
  | t32 =>
    simp only [decodeWord] at h
    split at h
    · rename_i hmask
      cases h
      exact ⟨rfl, rfl, by rw [encodeWord_vmrsT1, ← word_of_t32_fields hmask]⟩
    · split at h
      · rename_i hmask
        cases h
        exact ⟨rfl, rfl, by rw [encodeWord_vmsrT1, ← word_of_t32_fields hmask]⟩
      · cases h

/-- A word decodes in an instruction set exactly to the well-formed instruction of that set whose word it is. -/
theorem decodeWord_eq_some {set : InstrSet} {w : Word} {i : Instr} :
    decodeWord set w = some i ↔ i.wf = true ∧ i.set = set ∧ encodeWord i = w := by
  refine ⟨encodeWord_of_decodeWord, ?_⟩
  rintro ⟨hw, rfl, rfl⟩
  exact decodeWord_encodeWord hw

/-! ### The decoder of bytes (R110) -/

/-- Both T32 patterns begin `11101`. -/
theorem isWideT32_encodeWord {i : Instr} (h : i.set = .t32) :
    isWideT32 (halfOfBytes (byteOfWord (encodeWord i) 2) (byteOfWord (encodeWord i) 3)) = true := by
  cases i with
  | vmrsA1 cond t => cases h
  | vmsrA1 cond t => cases h
  | vmrsT1 t => revert t; decide
  | vmsrT1 t => revert t; decide

/-- The first halfword of a T32 instruction of the table is that of a 32-bit instruction. -/
theorem isWideT32_of_decodeWord {b0 b1 b2 b3 : Byte} {i : Instr}
    (h : decodeWord .t32 (assemble .t32 b0 b1 b2 b3) = some i) : isWideT32 (halfOfBytes b0 b1) = true := by
  obtain ⟨-, hset, hword⟩ := decodeWord_eq_some.mp h
  have hbytes := layout_assemble .t32 b0 b1 b2 b3
  rw [← hword] at hbytes
  obtain ⟨rfl, rfl, -⟩ : byteOfWord (encodeWord i) 2 = b0 ∧ byteOfWord (encodeWord i) 3 = b1 ∧ _ := by
    simpa only [layout, List.cons.injEq] using hbytes
  exact isWideT32_encodeWord hset

/-- Four bytes or more decode as the word that the first four make. -/
theorem decode_four (set : InstrSet) (b0 b1 b2 b3 : Byte) (rest : List Byte) :
    decode set (b0 :: b1 :: b2 :: b3 :: rest) = decodeFour set b0 b1 b2 b3 rest := by
  cases set with
  | a32 => rfl
  | t32 =>
    cases hwide : isWideT32 (halfOfBytes b0 b1) with
    | true => simp [decode, hwide]
    | false =>
      have hnone : decodeWord .t32 (assemble .t32 b0 b1 b2 b3) = none := by
        rw [Option.eq_none_iff_forall_ne_some]
        intro i hi
        exact absurd (isWideT32_of_decodeWord hi) (by simp [hwide])
      simp [decode, hwide, decodeFour, hnone]

/-- What decodes is at least four bytes long. -/
theorem four_of_decode {set : InstrSet} {bytes : List Byte} {r : Instr × List Byte} (h : decode set bytes = .ok r) :
    ∃ b0 b1 b2 b3 rest, bytes = b0 :: b1 :: b2 :: b3 :: rest := by
  match bytes with
  | b0 :: b1 :: b2 :: b3 :: rest => exact ⟨b0, b1, b2, b3, rest, rfl⟩
  | [] | [_] | [_, _] | [_, _, _] => cases set <;> simp [decode, ite_eq_iff] at h

/-- Bytes decode exactly when the first four make a word that does. -/
theorem decode_eq_ok {set : InstrSet} {bytes rest : List Byte} {i : Instr} :
    decode set bytes = .ok (i, rest) ↔
      ∃ b0 b1 b2 b3, bytes = b0 :: b1 :: b2 :: b3 :: rest ∧ decodeWord set (assemble set b0 b1 b2 b3) = some i := by
  constructor
  · intro h
    obtain ⟨b0, b1, b2, b3, tail, rfl⟩ := four_of_decode h
    rw [decode_four, decodeFour] at h
    split at h
    · rename_i j hj
      cases h
      exact ⟨b0, b1, b2, b3, rfl, hj⟩
    · cases h
  · rintro ⟨b0, b1, b2, b3, rfl, hw⟩
    simp [decode_four, decodeFour, hw]

/-! ### The obligations -/

/-- Settles O3: the words of the A32 forms are those the decoder takes. -/
theorem a32WordsDecodedExactly : Obligations.A32WordsDecodedExactly := by
  intro w i
  rw [decodeWord_eq_some]
  constructor
  · rintro ⟨hwf, hset, rfl⟩
    cases i with
    | vmrsA1 cond t => exact ⟨cond, t, by simpa [Instr.wf] using hwf, .inl ⟨rfl, encodeWord_vmrsA1 cond t⟩⟩
    | vmsrA1 cond t => exact ⟨cond, t, by simpa [Instr.wf] using hwf, .inr ⟨rfl, encodeWord_vmsrA1 cond t⟩⟩
    | vmrsT1 t => cases hset
    | vmsrT1 t => cases hset
  · rintro ⟨cond, t, hcond, ⟨rfl, rfl⟩ | ⟨rfl, rfl⟩⟩
    · exact ⟨by simpa [Instr.wf] using hcond, rfl, encodeWord_vmrsA1 cond t⟩
    · exact ⟨by simpa [Instr.wf] using hcond, rfl, encodeWord_vmsrA1 cond t⟩

/-- Settles O4: the words of the T32 forms are those the decoder takes. -/
theorem t32WordsDecodedExactly : Obligations.T32WordsDecodedExactly := by
  intro w i
  rw [decodeWord_eq_some]
  constructor
  · rintro ⟨-, hset, rfl⟩
    cases i with
    | vmrsA1 cond t => cases hset
    | vmsrA1 cond t => cases hset
    | vmrsT1 t => exact ⟨t, .inl ⟨rfl, (encodeWord_t1_halves t).1⟩⟩
    | vmsrT1 t => exact ⟨t, .inr ⟨rfl, (encodeWord_t1_halves t).2⟩⟩
  · rintro ⟨t, ⟨rfl, rfl⟩ | ⟨rfl, rfl⟩⟩
    · exact ⟨rfl, rfl, (encodeWord_t1_halves t).1⟩
    · exact ⟨rfl, rfl, (encodeWord_t1_halves t).2⟩

/-- Settles O1: the bytes of an instruction make its word again, and its word decodes to it. -/
theorem decodeInvertsEncode : Obligations.DecodeInvertsEncode := by
  intro i rest hwf
  obtain ⟨b0, b1, b2, b3, hlayout, hword⟩ := assemble_layout i.set (encodeWord i)
  refine decode_eq_ok.mpr ⟨b0, b1, b2, b3, by simp [encode, hlayout], ?_⟩
  rw [hword]
  exact decodeWord_encodeWord hwf

/-- Settles O2: the word of bytes that decode is the instruction's own, and laying it out gives the bytes again. -/
theorem encodeInvertsDecode : Obligations.EncodeInvertsDecode := by
  intro set bytes i rest h
  obtain ⟨b0, b1, b2, b3, rfl, hword⟩ := decode_eq_ok.mp h
  obtain ⟨hwf, rfl, henc⟩ := decodeWord_eq_some.mp hword
  refine ⟨hwf, rfl, ?_⟩
  rw [encode, henc, layout_assemble]
  rfl

/-- Settles O5: each worked word has the match of its row, or of none. -/
theorem specWordsDecode : Obligations.SpecWordsDecode := by
  unfold Obligations.SpecWordsDecode
  decide

end Sys2Proof
end

/-! SUPPORT. The fetch and the step: what the bytes at the pc give, and which move of the machine a step is. -/

section
namespace Sys2Proof.Machine

/-! ### The fetch (R82, R88, R110) -/

/-- The bytes of a well-formed instruction of the current instruction set are fetched as that instruction. -/
theorem fetch_of_encoded {s : State} {i : Instr} (hwf : i.wf = true) (hset : s.env.iset = i.set)
    (hbytes : Memory.readBytes s.text s.pc 4 = encode i) : s.fetch = .ok i := by
  have hdecode := decodeInvertsEncode i [] hwf
  rw [List.append_nil] at hdecode
  simp [State.fetch, hset, hbytes, hdecode]

/-- Four bytes whose word is no row of the opcode table are no instruction (R112). -/
theorem fetch_of_unknown_word {s : State} {b0 b1 b2 b3 : Byte}
    (hbytes : Memory.readBytes s.text s.pc 4 = [b0, b1, b2, b3])
    (hword : decodeWord s.env.iset (assemble s.env.iset b0 b1 b2 b3) = none) : s.fetch = .error .notInScope := by
  simp [State.fetch, hbytes, decode_four, decodeFour, hword, fetchRefusal]

/-! ### Which move a step is (R29, assumption 13) -/

section
variable {s : State} {rest : List Event}

theorem runInstruction_of_fetch_ok {i : Instr} (h : s.fetch = .ok i) : runInstruction s = exec i s := by
  simp [runInstruction, h]

theorem runInstruction_of_fetch_error {r : Refusal} (h : s.fetch = .error r) : runInstruction s = .refused r := by
  simp [runInstruction, h]

theorem step_of_no_event (h : s.events = []) : step s = runInstruction s := by
  simp [step, h]

theorem step_of_event {ev : Event} (h : s.events = ev :: rest) : step s = stepEvent ev { s with events := rest } := by
  simp [step, h]

/-- A scheduled instruction runs with the functionality or without it: its own refusals decide (assumption 22). -/
theorem step_of_scheduled (h : s.events = .instruction :: rest) :
    step s = runInstruction { s with events := rest } := by
  simp [step_of_event h, stepEvent, runEvent]

end

/-! ### The obligations -/

/-- Settles O6: the bytes of an instruction are fetched as it, and what is fetched runs. -/
theorem stepRunsDecodedInstruction : Obligations.StepRunsDecodedInstruction := by
  intro s he
  rw [step_of_no_event he]
  exact ⟨fun i hwf hset hbytes => runInstruction_of_fetch_ok (fetch_of_encoded hwf hset hbytes),
    fun i hi => runInstruction_of_fetch_ok hi, fun r hr => runInstruction_of_fetch_error hr⟩

/-- Settles O7: the head of the queue is the event that runs. -/
theorem stepTakesOldestEventFirst : Obligations.StepTakesOldestEventFirst :=
  fun _ _ _ h => step_of_event h

/-- Settles O52: the fetch does not look at the queue, so what it gives runs with the event done. -/
theorem scheduledInstructionRuns : Obligations.ScheduledInstructionRuns := by
  intro s rest he
  rw [step_of_scheduled he]
  exact ⟨fun i hi => runInstruction_of_fetch_ok hi, fun r hr => runInstruction_of_fetch_error hr⟩

/-- Settles O8: such bytes are fetched as no instruction, and the fetch's refusal is the step's. -/
theorem otherWordsRefused : Obligations.OtherWordsRefused := by
  intro s b0 b1 b2 b3 he hbytes hword
  rw [step_of_no_event he]
  exact runInstruction_of_fetch_error (fetch_of_unknown_word hbytes hword)

/-- Settles O47: the event is the step, and it replaces the inputs alone. -/
theorem newInputs : Obligations.NewInputs :=
  fun _ _ _ _ hf he => step_event he hf

/-- Settles O33: the cells are those of the reset step. -/
theorem resetStateCells : Obligations.ResetStateCells := by
  refine ⟨rfl, rfl, rfl, rfl, rfl, fun x => ?_, reset_fpexc⟩
  cases x <;> rfl

/-- Settles O45: no text, the cells of the reset step, and no unsynchronised EN. -/
theorem resetStateWf : Obligations.ResetStateWf := by
  have hcells : fpexcWf State.reset.params State.reset.fpexc = true := by
    rw [reset_fpexc]
    exact fpexcReset_wf _
  simp only [Obligations.ResetStateWf, State.wf, reset_text_wf, hcells, Bool.true_and]
  rfl

end Sys2Proof.Machine
end

/-! SUPPORT. What executing an instruction can do: it is refused by name, or it is admitted and then either its
condition holds and the check decides, or its condition fails; and what each of these leaves alone. -/

section
namespace Sys2Proof.Machine

/-! ### Refusal and admission (R7, R112, R127) -/

/-- The refusal of a form before its condition and the check are looked at. -/
def formRefusal (p : Params) (i : Instr) : Option Refusal :=
  if i.wf = true then admission p i.set i.rt else some .notInScope

theorem admission_eq_none_iff {p : Params} {set : InstrSet} {t : RegNum} :
    admission p set t = none ↔
      p.haveFp = true ∧ t ≠ 15#4 ∧ (set = .t32 → t = 13#4 → p.t32SpOk = true) := by
  refine ⟨fun h => ?_, fun ⟨hf, h15, h13⟩ => admission_eq_none hf h15 h13⟩
  unfold admission at h
  split at h
  · cases h
  · rename_i hf
    split at h
    · cases h
    · rename_i h15
      split at h
      · cases h
      · rename_i h13
        exact ⟨by simpa using hf, h15, fun hset ht => by simpa [hset, ht] using h13⟩

/-- A form is admitted exactly when nothing refuses it. -/
theorem formRefusal_eq_none {i : Instr} {s : State} : formRefusal s.params i = none ↔ Admitted i s := by
  unfold formRefusal Admitted
  split
  · rename_i hwf
    rw [admission_eq_none_iff, and_iff_right hwf]
  · rename_i hwf
    simp [hwf]

section
variable {s : State} {t : RegNum} {effect : State → State} {r : Refusal}

theorem accessForm_refused {set : InstrSet} {passed : Bool} (h : admission s.params set t = some r) :
    accessForm set passed t s effect = .refused r := by
  simp [accessForm, h]

theorem accessA32_refused {cond : BitVec 4}
    (h : (if (cond != 0b1111#4) = true then admission s.params .a32 t else some .notInScope) = some r) :
    accessA32 cond t s effect = .refused r := by
  cases hc : condOfBits cond with
  | none =>
    have hcond : ¬(cond != 0b1111#4) = true := fun hne => by
      obtain ⟨c, hsome⟩ := exists_cond hne
      simp [hsome] at hc
    rw [if_neg hcond] at h
    cases h
    simp [accessA32, hc]
  | some c =>
    rw [if_pos (cond_ne_of_some hc)] at h
    simp [accessA32, hc, accessForm_refused h]

end

/-- A form that is refused stops with that refusal, whatever its condition and the check. -/
theorem exec_refused {i : Instr} {s : State} {r : Refusal} (h : formRefusal s.params i = some r) :
    exec i s = .refused r := by
  cases i with
  | vmrsA1 cond t => exact accessA32_refused h
  | vmsrA1 cond t => exact accessA32_refused h
  | vmrsT1 t => exact accessForm_refused (set := .t32) (effect := fun s => s.moveFromFpexc t) h
  | vmsrT1 t => exact accessForm_refused (set := .t32) (effect := fun s => s.moveToFpexc t) h

/-- An instruction that is not refused is admitted. -/
theorem exec_refused_or_admitted (i : Instr) (s : State) : (∃ r, exec i s = .refused r) ∨ Admitted i s := by
  cases h : formRefusal s.params i with
  | none => exact .inr (formRefusal_eq_none.mp h)
  | some r => exact .inl ⟨r, exec_refused h⟩

/-! ### VMRS and VMSR -/

/-- A form that reads FPEXC (R105, R107). -/
def IsVmrs (i : Instr) : Prop := i = .vmrsT1 i.rt ∨ ∃ c, i = .vmrsA1 c i.rt

/-- A form that writes FPEXC (R106, R108). -/
def IsVmsr (i : Instr) : Prop := i = .vmsrT1 i.rt ∨ ∃ c, i = .vmsrA1 c i.rt

theorem isVmrs_or_isVmsr (i : Instr) : IsVmrs i ∨ IsVmsr i := by
  cases i with
  | vmrsA1 cond t => exact .inl (.inr ⟨cond, rfl⟩)
  | vmsrA1 cond t => exact .inr (.inr ⟨cond, rfl⟩)
  | vmrsT1 t => exact .inl (.inl rfl)
  | vmsrT1 t => exact .inr (.inl rfl)

theorem formEffect_of_isVmrs {i : Instr} (h : IsVmrs i) (s : State) :
    formEffect i s = (s.condTaken i.set).moveFromFpexc i.rt := by
  obtain h | ⟨c, h⟩ := h <;> rw [h] <;> rfl

theorem formEffect_of_isVmsr {i : Instr} (h : IsVmsr i) (s : State) :
    formEffect i s = (s.condTaken i.set).moveToFpexc i.rt := by
  obtain h | ⟨c, h⟩ := h <;> rw [h] <;> rfl

/-! ### When an instruction completes -/

/-- An admitted instruction whose condition holds and whose check allows it has its form's effect. -/
theorem exec_completes {i : Instr} {s : State} (ha : Admitted i s) (hp : condPassed i s = true)
    (hc : accessCheck s.env = .allow) : exec i s = .next (formEffect i s) :=
  (exec_passed ha hp).trans (guarded_eq_next.mpr ⟨hc, rfl⟩)

/-- A failed condition where the check allows. -/
theorem condFailed_of_allow {s : State} (h : accessCheck s.env = .allow) : condFailed s = .next s.advance := by
  simp [condFailed, fault?_eq_none.mpr h]

/-- A failed condition where the check does not allow: the next draw chooses (R126, D9). -/
theorem condFailed_of_fault {s : State} {f : Fault} (h : (accessCheck s.env).fault? = some f) :
    condFailed s = if s.drawn 0 = true then .fault f else .next (s.takeDraws 1).advance := by
  simp [condFailed, h, takeException]

/-- An instruction that answers a next state was admitted, and it had its effect with leave of the check, or its
condition failed and it moved the pc alone. -/
theorem exec_next_cases {i : Instr} {s s' : State} (h : exec i s = .next s') :
    Admitted i s ∧
      ((condPassed i s = true ∧ accessCheck s.env = .allow ∧ s' = formEffect i s) ∨
        (condPassed i s = false ∧
          (s' = (s.condTaken i.set).advance ∨ s' = ((s.condTaken i.set).takeDraws 1).advance))) := by
  obtain ⟨r, hr⟩ | ha := exec_refused_or_admitted i s
  · rw [hr] at h
    cases h
  · refine ⟨ha, ?_⟩
    cases hp : condPassed i s with
    | true =>
      rw [exec_passed ha hp] at h
      exact .inl ⟨rfl, guarded_eq_next.mp h⟩
    | false =>
      rw [exec_failed ha hp] at h
      exact .inr ⟨rfl, condFailed_eq_next h⟩

/-! ### What an instruction leaves alone -/

/-- What every instruction that answers a next state keeps, and the T32 conditions it leaves. -/
structure ExecFrame (i : Instr) (s s' : State) : Prop where
  params : s'.params = s.params
  env : s'.env = s.env
  text : s'.text = s.text
  events : s'.events = s.events
  itConds : s'.itConds = condsAfter i s

theorem formEffect_frame (i : Instr) (s : State) : ExecFrame i s (formEffect i s) := by
  obtain hi | hi := isVmrs_or_isVmsr i
  · rw [formEffect_of_isVmrs hi]
    constructor <;> simp [condTaken_itConds]
  · rw [formEffect_of_isVmsr hi]
    constructor <;> simp [condTaken_itConds]

theorem exec_frame {i : Instr} {s s' : State} (h : exec i s = .next s') : ExecFrame i s s' := by
  obtain ⟨-, ⟨-, -, rfl⟩ | ⟨-, rfl | rfl⟩⟩ := exec_next_cases h
  · exact formEffect_frame i s
  · constructor <;> simp [condTaken_itConds]
  · constructor <;> simp [condTaken_itConds]

theorem ExecFrame.sameSurroundings {i : Instr} {s s' : State} (h : ExecFrame i s s') : SameSurroundings s s' :=
  ⟨h.params, h.env, h.events, fun a => by rw [h.text]⟩

/-- The registers other than R15 read as before where the register file is as before. -/
theorem sameRegs_of_regs {s s' : State} (h : s'.regs = s.regs) : SameRegsExcept [] s s' :=
  fun _ _ hu => readReg_congr h hu

/-- Taking a condition, some draws and the pc advance make a no-op. -/
theorem noOp_advance (s : State) (set : InstrSet) (k : Nat) : NoOp k s ((s.condTaken set).takeDraws k).advance := by
  refine ⟨?_, ?_, ?_, ?_, sameRegs_of_regs ?_, ?_, ?_, ?_, fun a => ?_⟩ <;> simp

end Sys2Proof.Machine
end

/-! SUPPORT. The statements about the four instructions: refusal, the outcomes of the check, completion of a read and of
a write, a failed condition, and what an outcome does not depend on. -/

section
namespace Sys2Proof.Machine

/-! ### Refusals and faults -/

/-- A T32 form has no `cond` field that could name no condition. -/
theorem wf_of_t32 {i : Instr} (h : i.set = .t32) : i.wf = true := by
  cases i with
  | vmrsA1 cond t => cases h
  | vmsrA1 cond t => cases h
  | vmrsT1 t => rfl
  | vmsrT1 t => rfl

/-- Settles O22: each pattern names its condition, and the condition is what the table says. -/
theorem conditionTable : Obligations.ConditionTable := by
  intro n z c v
  exact ⟨rfl, rfl, rfl, rfl, rfl, rfl, rfl, rfl, rfl, rfl, rfl, rfl, rfl, rfl, rfl, rfl⟩

/-- Settles O21: the forms' own refusals, and the refusal of an event without the functionality. -/
theorem unadmittedAccessRefused : Obligations.UnadmittedAccessRefused := by
  refine ⟨fun i s hwf hf h15 => ?_, fun i s hf hset h13 hsp => ?_, fun i s hwf hf => ?_, fun s ev rest he hev hf => ?_⟩
  · exact exec_refused (by simp [formRefusal, hwf, admission, hf, h15])
  · exact exec_refused (by simp [formRefusal, wf_of_t32 hset, admission, hf, hset, h13, hsp])
  · exact exec_refused (by simp [formRefusal, hwf, admission, hf])
  · simp [step_of_event he, stepEvent, hf, hev]

/-- Settles O11: at EL0 the check answers `Undefined`, and the step ends with its fault. -/
theorem el0AccessUndefined : Obligations.El0AccessUndefined := by
  intro i s ha hp hel
  exact exec_eq_fault_of_check ha hp (by rw [accessCheck_el0 hel]; rfl)

/-! ### The check at EL1 to EL3 (R128, R129) -/

/-- Settles O12: each row fixes whether EL2 is enabled and which state it uses, which leaves the arms the row names. -/
theorem el1Table : Obligations.El1Table := by
  intro e hel h32
  rw [accessCheck_el1 hel]
  by_cases hdeny : nsDeny e = true ∨ e.cpacrCp10 = 0b00#2
  · rw [if_pos ⟨h32, hdeny⟩, if_pos hdeny]
  · rw [if_neg (fun h => hdeny h.2), if_neg hdeny]
    obtain ⟨hns, -⟩ := not_or.mp hdeny
    cases hen : e.el2Enabled with
    | false => simp [el2A64, el2A32, hen]
    | true =>
      cases h2 : e.el2AArch32 with
      | false => simp [el2A64, el2A32, hen, h2]
      | true => simp only [el2A64, el2A32, hen, h2, hns]; simp

/-- Settles O13: the arms of EL2 and of EL3 name no other input. -/
theorem higherLevelsReadFewerInputs : Obligations.HigherLevelsReadFewerInputs := by
  refine ⟨fun e a b c hel => ?_, fun e e' hel hel' hcp => ?_, fun e hel => ?_, fun e hel hen htfp he2h => ?_⟩
  · rw [accessCheck_el2 hel, accessCheck_el2 (e := { e with hcrEl2Tid3 := a, hcrTid3 := b, cpacrCp10 := c }) hel]
    rfl
  · rw [accessCheck_el3 hel, accessCheck_el3 hel', hcp]
  · rw [accessCheck_el3 hel]
    split <;> simp_all
  · simp [accessCheck_el2 hel, hen, htfp, he2h]

/-! ### Completion (R123, R124) -/

section
variable {s : State} {t : RegNum}

/-- A read writes its register and moves the pc, and takes thirty-two draws (R123). -/
theorem moveFromFpexc_spec (set : InstrSet) (h15 : t ≠ 15#4) :
    let s' := (s.condTaken set).moveFromFpexc t
    s'.readReg t = fpexcRead s.params s.fpexc s.drawn ∧ s'.pc = s.pc + 4 ∧ s'.fpexc = s.fpexc ∧
      s'.staleEn = s.staleEn ∧ s'.draws = s.draws + 32 ∧ SameRegsExcept [t] s s' := by
  refine ⟨?_, ?_, ?_, ?_, ?_, fun u hu hu15 => ?_⟩
  · rw [moveFromFpexc_readReg_self _ h15]; simp
  · rw [moveFromFpexc_pc _ h15]; simp
  · simp
  · simp
  · simp
  · rw [moveFromFpexc_readReg_other _ h15 (by simpa using hu) hu15]; simp

/-- The cells after a write are those R54 names. -/
theorem fpexcWrite_writtenWith (p : Params) (f : Fpexc) (w : Word) : WrittenWith p f w (fpexcWrite p f w) := by
  refine ⟨rfl, ?_, rfl, fun x => ?_, fun hr => ?_, fun hr n hn => ?_⟩
  · simp [fpexcWrite, cfgName_eq_cfgA]
  · by_cases ht : p.trapFpexc = true
    · simp only [fpexcWrite, ht, if_true]
      cases x <;> rfl
    · simp [fpexcWrite, ht]
  · simp [fpexcWrite, hr]
  · simp only [fpexcWrite, hr]
    exact resvCell_written hr hn

/-- A write changes the FPEXC cells and moves the pc (R124). -/
theorem moveToFpexc_spec (set : InstrSet) :
    let s' := (s.condTaken set).moveToFpexc t
    WrittenWith s.params s.fpexc (s.readReg t) s'.fpexc ∧ s'.pc = s.pc + 4 ∧
      (s.params.sync = .immediate → s'.staleEn = s.staleEn) ∧ s'.draws = s.draws ∧ SameRegsExcept [] s s' := by
  refine ⟨?_, ?_, fun hsync => ?_, ?_, sameRegs_of_regs ?_⟩
  · simpa using fpexcWrite_writtenWith s.params s.fpexc (s.readReg t)
  · simp
  · simp [staleAfterWrite, hsync]
  · simp
  · simp

end

/-- An A32 form whose `cond` field is not `1111` is admitted with any register but R15. -/
theorem admitted_a32 {i : Instr} {s : State} (hset : i.set = .a32) (hwf : i.wf = true) (hf : s.params.haveFp = true)
    (h15 : i.rt ≠ 15#4) : Admitted i s :=
  ⟨hwf, hf, h15, by simp [hset]⟩

/-- Settles O15: the instruction completes with its effect, a read; its frame is that of every instruction. -/
theorem vmrsA1Completes : Obligations.VmrsA1Completes := by
  intro s cond c t hf h15 hcond hholds hc
  have hp : condPassed (.vmrsA1 cond t) s = true := by simp [condPassed, hcond, hholds]
  have ha : Admitted (.vmrsA1 cond t) s := admitted_a32 rfl (cond_ne_of_some hcond) hf h15
  obtain ⟨hreg, hpc, hfpexc, hstale, hdraws, hregs⟩ := moveFromFpexc_spec (s := s) .a32 h15
  have hframe := formEffect_frame (.vmrsA1 cond t) s
  exact ⟨_, exec_completes ha hp hc, hreg, hpc, hfpexc, hstale, hdraws, hregs, hframe.itConds, hframe.sameSurroundings⟩

/-- Settles O16: the same read, after its IT condition is taken. -/
theorem vmrsT1Completes : Obligations.VmrsT1Completes := by
  intro s t hf h15 h13 hholds hc
  have ha : Admitted (.vmrsT1 t) s := ⟨rfl, hf, h15, fun _ => h13⟩
  obtain ⟨hreg, hpc, hfpexc, hstale, hdraws, hregs⟩ := moveFromFpexc_spec (s := s) .t32 h15
  have hframe := formEffect_frame (.vmrsT1 t) s
  exact ⟨_, exec_completes ha hholds hc, hreg, hpc, hfpexc, hstale, hdraws, hregs, hframe.itConds,
    hframe.sameSurroundings⟩

/-- Settles O17: the instruction completes with its effect, a write of the cells R54 names. -/
theorem vmsrA1Completes : Obligations.VmsrA1Completes := by
  intro s cond c t hf h15 hcond hholds hc
  have hp : condPassed (.vmsrA1 cond t) s = true := by simp [condPassed, hcond, hholds]
  have ha : Admitted (.vmsrA1 cond t) s := admitted_a32 rfl (cond_ne_of_some hcond) hf h15
  obtain ⟨hcells, hpc, hstale, hdraws, hregs⟩ := moveToFpexc_spec (s := s) (t := t) .a32
  have hframe := formEffect_frame (.vmsrA1 cond t) s
  exact ⟨_, exec_completes ha hp hc, hcells, hpc, hstale, hdraws, hregs, hframe.itConds, hframe.sameSurroundings⟩

/-- Settles O18: the same write, after its IT condition is taken. -/
theorem vmsrT1Completes : Obligations.VmsrT1Completes := by
  intro s t hf h15 h13 hholds hc
  have ha : Admitted (.vmsrT1 t) s := ⟨rfl, hf, h15, fun _ => h13⟩
  obtain ⟨hcells, hpc, hstale, hdraws, hregs⟩ := moveToFpexc_spec (s := s) (t := t) .t32
  have hframe := formEffect_frame (.vmsrT1 t) s
  exact ⟨_, exec_completes ha hholds hc, hcells, hpc, hstale, hdraws, hregs, hframe.itConds, hframe.sameSurroundings⟩

/-! ### A failed condition (R126) -/

/-- Settles O19: with the check allowing, a failed condition takes no draw. -/
theorem failedConditionIsNoOp : Obligations.FailedConditionIsNoOp := by
  intro i s ha hp hc
  have hexec : exec i s = .next (s.condTaken i.set).advance := by
    rw [exec_failed ha hp, condFailed_of_allow (by simpa using hc)]
  exact ⟨_, hexec, noOp_advance s i.set 0, condTaken_itConds i s⟩

/-- Settles O20: with the check not allowing, one draw chooses between its fault and the no-op. -/
theorem failedConditionMayStillFault : Obligations.FailedConditionMayStillFault := by
  intro i s f ha hp hf
  refine ⟨_, noOp_advance s i.set 1, condTaken_itConds i s, ?_⟩
  rw [exec_failed ha hp, condFailed_of_fault (f := f) (by simpa using hf), condTaken_drawn]
  rfl

/-! ### What the outcome does not depend on (R125) -/

/-- The stop of a failed condition is decided by the inputs and the next draw. -/
theorem stop_condFailed (s : State) :
    faultOf (condFailed s) = (if s.drawn 0 = true then (accessCheck s.env).fault? else none) ∧
      refusalOf (condFailed s) = none := by
  cases hf : (accessCheck s.env).fault? with
  | none =>
    rw [condFailed_of_allow (fault?_eq_none.mp hf)]
    simp [faultOf, refusalOf]
  | some f =>
    rw [condFailed_of_fault hf]
    split <;> simp [faultOf, refusalOf]

/-- The stop of a guarded step is the check's fault. -/
theorem stop_guarded (c : CheckResult) (n : State) :
    faultOf (guarded c n) = c.fault? ∧ refusalOf (guarded c n) = none := by
  cases c <;> exact ⟨rfl, rfl⟩

/-- Other FPEXC cells give the same stop: refusal, condition and check do not read them. -/
theorem stop_exec_fpexc (i : Instr) (s : State) (f : Fpexc) :
    faultOf (exec i { s with fpexc := f }) = faultOf (exec i s) ∧
      refusalOf (exec i { s with fpexc := f }) = refusalOf (exec i s) := by
  cases hr : formRefusal s.params i with
  | some r => rw [exec_refused (s := s) hr, exec_refused (s := { s with fpexc := f }) hr]; exact ⟨rfl, rfl⟩
  | none =>
    have ha : Admitted i s := formRefusal_eq_none.mp hr
    have ha' : Admitted i { s with fpexc := f } := ha
    have hcond : condPassed i { s with fpexc := f } = condPassed i s := by cases i <;> rfl
    cases hp : condPassed i s with
    | true =>
      rw [exec_passed ha hp, exec_passed ha' (hcond.trans hp)]
      simp [stop_guarded]
    | false =>
      rw [exec_failed ha hp, exec_failed ha' (hcond.trans hp)]
      simp [stop_condFailed, State.drawn]

section
variable {o : Host.Outcome State Fault Refusal}

theorem eq_fault_iff {r : Fault} : o = .fault r ↔ faultOf o = some r := by cases o <;> simp [faultOf]

theorem eq_refused_iff {r : Refusal} : o = .refused r ↔ refusalOf o = some r := by cases o <;> simp [refusalOf]

theorem exists_next_iff : (∃ s', o = .next s') ↔ faultOf o = none ∧ refusalOf o = none := by
  cases o <;> simp [faultOf, refusalOf]

end

/-- Settles O14: the fault and the refusal of an outcome say which of the three it is, and both are the same. -/
theorem fpexcNeverGuardsItself : Obligations.FpexcNeverGuardsItself := by
  intro i s f
  obtain ⟨hfault, hrefusal⟩ := stop_exec_fpexc i s f
  simp only [eq_fault_iff, eq_refused_iff, exists_next_iff, hfault, hrefusal, implies_true, and_self]

/-! ### Conditions, writes and draws -/

theorem condPassed_t32 {j : Instr} (hset : j.set = .t32) (s : State) :
    condPassed j s = condHolds (s.itConds.headD .al) s.env.flags := by
  cases j with
  | vmrsA1 cond t => cases hset
  | vmsrA1 cond t => cases hset
  | vmrsT1 t => rfl
  | vmsrT1 t => rfl

/-- Settles O53: an instruction leaves the flags, and of the conditions those after its own. -/
theorem eachInstructionTakesItsCondition : Obligations.EachInstructionTakesItsCondition := by
  intro i s
  refine ⟨fun hset => condPassed_t32 hset s, fun s' h => ?_⟩
  have hframe := exec_frame h
  refine ⟨fun hset => ?_, fun hset => ?_, fun j hj => ?_⟩
  · simp [hframe.itConds, condsAfter, hset]
  · simp [hframe.itConds, condsAfter, hset]
  · rw [condPassed_t32 hj, hframe.itConds, hframe.env]

/-- Settles O50: of the ways an instruction goes on, only the effect of a VMSR is a write. -/
theorem onlyPermittedVmsrWritesFpexc : Obligations.OnlyPermittedVmsrWritesFpexc := by
  intro i s s' h hne
  obtain ⟨ha, ⟨hp, hc, rfl⟩ | ⟨-, rfl | rfl⟩⟩ := exec_next_cases h
  · obtain hi | hi := isVmrs_or_isVmsr i
    · exact absurd (by simp [formEffect_of_isVmrs hi]) hne
    · exact ⟨hc, hp, ha, hi⟩
  · exact absurd (by simp) hne
  · exact absurd (by simp) hne

end Sys2Proof.Machine
end

/-! SUPPORT. The rules of the whole machine: what every step keeps, and what can happen at EL0. -/

section
namespace Sys2Proof.Machine

/-! ### The invariant, part by part -/

theorem wf_iff {s : State} :
    s.wf = true ↔ Memory.wf s.text = true ∧ fpexcWf s.params s.fpexc = true ∧
      (s.params.sync = .immediate → s.staleEn = none) := by
  cases h : s.params.sync <;> simp [State.wf, h, and_assoc]

/-- A state with the text, the parameters and an EN bookkeeping of one that meets the invariant meets it where its cells
have the form. -/
theorem wf_of_cells {s s' : State} (hw : s.wf = true) (htext : s'.text = s.text) (hparams : s'.params = s.params)
    (hcells : fpexcWf s.params s'.fpexc = true)
    (hstale : s.params.sync = .immediate → s.staleEn = none → s'.staleEn = none) : s'.wf = true := by
  obtain ⟨hmem, -, hsync⟩ := wf_iff.mp hw
  rw [wf_iff, htext, hparams]
  exact ⟨hmem, hcells, fun h => hstale h (hsync h)⟩

/-- The write keeps the EN bookkeeping of an immediate implementation. -/
theorem staleAfterWrite_immediate {p : Params} (h : p.sync = .immediate) (stale : Option Cell) (old : Cell) :
    staleAfterWrite p stale old = stale := by
  simp [staleAfterWrite, h]

/-- An instruction keeps the invariant: only VMSR writes cells, and its write keeps their form. -/
theorem exec_keeps_wf {i : Instr} {s s' : State} (hw : s.wf = true) (h : exec i s = .next s') : s'.wf = true := by
  have hframe := exec_frame h
  obtain ⟨-, hcells, -⟩ := wf_iff.mp hw
  obtain ⟨-, ⟨-, -, rfl⟩ | ⟨-, rfl | rfl⟩⟩ := exec_next_cases h
  · obtain hi | hi := isVmrs_or_isVmsr i
    · refine wf_of_cells hw hframe.text hframe.params ?_ fun _ hnone => ?_
      · simpa [formEffect_of_isVmrs hi] using hcells
      · simpa [formEffect_of_isVmrs hi] using hnone
    · refine wf_of_cells hw hframe.text hframe.params ?_ fun hsync hnone => ?_
      · simpa [formEffect_of_isVmsr hi] using fpexcWrite_wf _ hcells
      · simpa [formEffect_of_isVmsr hi, staleAfterWrite_immediate hsync] using hnone
  · exact wf_of_cells hw hframe.text hframe.params (by simpa using hcells) fun _ hnone => by simpa using hnone
  · exact wf_of_cells hw hframe.text hframe.params (by simpa using hcells) fun _ hnone => by simpa using hnone

/-- An event keeps the invariant: a recording and a reset leave cells of the configuration's form. -/
theorem stepEvent_keeps_wf {ev : Event} {s s' : State} (hw : s.wf = true) (h : stepEvent ev s = .next s') :
    s'.wf = true := by
  obtain ⟨-, hcells, -⟩ := wf_iff.mp hw
  obtain ⟨cause, f, -, hrec, -, rfl⟩ | ⟨cause, -, rfl⟩ | ⟨reg, -, -, rfl⟩ | ⟨-, rfl⟩ | ⟨e, conds, -, rfl⟩ |
    ⟨i, -, -, hexec⟩ | ⟨-, hreset⟩ := stepEvent_eq_next h
  · exact wf_of_cells hw rfl rfl (fpexcRecord_wf hrec hcells) fun _ hnone => hnone
  · exact hw
  · exact wf_of_cells hw rfl rfl hcells fun _ hnone => hnone
  · exact wf_of_cells hw rfl rfl hcells fun _ _ => rfl
  · exact wf_of_cells hw rfl rfl hcells fun _ hnone => hnone
  · exact exec_keeps_wf hw hexec
  · cases hreset
    exact wf_of_cells hw rfl rfl (fpexcReset_wf _) fun _ _ => rfl

/-- Settles O46: the queue is no part of the invariant, and each kind of step keeps it. -/
theorem stepKeepsWf : Obligations.StepKeepsWf := by
  intro s s' hw h
  obtain ⟨ev, rest, -, hev⟩ | ⟨i, -, -, hexec⟩ := step_eq_next h
  · exact stepEvent_keeps_wf (s := { s with events := rest }) hw hev
  · exact exec_keeps_wf hw hexec

/-! ### What no step writes -/

/-- An instruction leaves the list of T32 conditions or takes the first. -/
theorem condsAfter_cases (i : Instr) (s : State) : condsAfter i s = s.itConds ∨ condsAfter i s = s.itConds.tail := by
  cases hset : i.set with
  | a32 => exact .inl (by simp [condsAfter, hset])
  | t32 => exact .inr (by simp [condsAfter, hset])

/-- What an event leaves alone (R66, R88): the parameters and the text; the Exception level, but for a reset; the
inputs, but for a reset or new inputs. -/
theorem stepEvent_keeps_inputs {ev : Event} {s s' : State} (h : stepEvent ev s = .next s') :
    s'.params = s.params ∧ s'.text = s.text ∧ (ev ≠ .reset → s'.env.el = s.env.el) ∧
      (ev ≠ .reset → (∀ e conds, ev ≠ .inputs e conds) →
        s'.env = s.env ∧ (s'.itConds = s.itConds ∨ s'.itConds = s.itConds.tail)) := by
  obtain ⟨cause, f, -, -, -, rfl⟩ | ⟨cause, -, rfl⟩ | ⟨reg, -, -, rfl⟩ | ⟨-, rfl⟩ | ⟨e, conds, rfl, rfl⟩ |
    ⟨i, -, -, hexec⟩ | ⟨rfl, hreset⟩ := stepEvent_eq_next h
  · exact ⟨rfl, rfl, fun _ => rfl, fun _ _ => ⟨rfl, .inl rfl⟩⟩
  · exact ⟨rfl, rfl, fun _ => rfl, fun _ _ => ⟨rfl, .inl rfl⟩⟩
  · exact ⟨rfl, rfl, fun _ => rfl, fun _ _ => ⟨rfl, .inl rfl⟩⟩
  · exact ⟨rfl, rfl, fun _ => rfl, fun _ _ => ⟨rfl, .inl rfl⟩⟩
  · exact ⟨rfl, rfl, fun _ => rfl, fun _ hne => absurd rfl (hne e conds)⟩
  · have hframe := exec_frame hexec
    exact ⟨hframe.params, hframe.text, fun _ => by rw [hframe.env],
      fun _ _ => ⟨hframe.env, by rw [hframe.itConds]; exact condsAfter_cases i s⟩⟩
  · cases hreset
    exact ⟨rfl, rfl, fun hne => absurd rfl hne, fun hne => absurd rfl hne⟩

/-- Settles O48: an event's frame, or an instruction's. -/
theorem inputsAreNotWritten : Obligations.InputsAreNotWritten := by
  intro s s' h
  obtain ⟨ev, rest, he, hev⟩ | ⟨i, -, -, hexec⟩ := step_eq_next h
  · obtain ⟨hparams, htext, hel, henv⟩ := stepEvent_keeps_inputs hev
    rw [he]
    exact ⟨hparams, fun a => by rw [htext], fun hreset => hel fun hev' => hreset rest (by rw [hev']),
      fun hreset hinputs => henv (fun hev' => hreset rest (by rw [hev']))
        fun e conds hev' => hinputs e conds rest (by rw [hev'])⟩
  · have hframe := exec_frame hexec
    exact ⟨hframe.params, fun a => by rw [hframe.text], fun _ => by rw [hframe.env],
      fun _ _ => ⟨hframe.env, by rw [hframe.itConds]; exact condsAfter_cases i s⟩⟩

/-! ### Draws (R23, D3) -/

theorem formEffect_draws_of_isVmrs {i : Instr} (hi : IsVmrs i) (s : State) : (formEffect i s).draws = s.draws + 32 := by
  simp [formEffect_of_isVmrs hi]

/-- No instruction moves the counter back. -/
theorem exec_draws_le {i : Instr} {s s' : State} (h : exec i s = .next s') : s.draws ≤ s'.draws := by
  obtain ⟨-, ⟨-, -, rfl⟩ | ⟨-, rfl | rfl⟩⟩ := exec_next_cases h
  · obtain hi | hi := isVmrs_or_isVmsr i
    · simp [formEffect_draws_of_isVmrs hi]
    · simp [formEffect_of_isVmsr hi]
  · simp
  · simp

/-- No event moves the counter back. -/
theorem stepEvent_draws_le {ev : Event} {s s' : State} (h : stepEvent ev s = .next s') : s.draws ≤ s'.draws := by
  obtain ⟨cause, f, -, -, -, rfl⟩ | ⟨cause, -, rfl⟩ | ⟨reg, -, -, rfl⟩ | ⟨-, rfl⟩ | ⟨e, conds, -, rfl⟩ |
    ⟨i, -, -, hexec⟩ | ⟨-, hreset⟩ := stepEvent_eq_next h
  · exact le_rfl
  · exact le_rfl
  · exact Nat.le_add_right _ _
  · exact le_rfl
  · exact le_rfl
  · exact exec_draws_le hexec
  · cases hreset
    exact Nat.le_add_right _ _

/-- Settles O51: each kind of step keeps or raises the counter, and a read takes its thirty-two. -/
theorem drawsAreFresh : Obligations.DrawsAreFresh := by
  constructor
  · intro s s' h
    obtain ⟨ev, rest, -, hev⟩ | ⟨i, -, -, hexec⟩ := step_eq_next h
    · exact stepEvent_draws_le (s := { s with events := rest }) hev
    · exact exec_draws_le hexec
  · intro i s s' h hp hi
    obtain ⟨-, ⟨-, -, rfl⟩ | ⟨hfail, -⟩⟩ := exec_next_cases h
    · exact formEffect_draws_of_isVmrs hi s
    · simp [hp] at hfail

/-! ### EL0 (R148) -/

/-- At EL0 an instruction faults, is refused, or is a no-op that took one draw: the check allows nothing there. -/
theorem exec_el0 (i : Instr) {s : State} (hel : s.env.el = .el0) :
    exec i s = .fault .undefined ∨ (∃ r, exec i s = .refused r) ∨
      ∃ s', exec i s = .next s' ∧ NoOp 1 s s' ∧ s'.itConds = condsAfter i s := by
  obtain hrefused | ha := exec_refused_or_admitted i s
  · exact .inr (.inl hrefused)
  · cases hp : condPassed i s with
    | true => exact .inl (el0AccessUndefined i s ha hp hel)
    | false =>
      have hcheck : (accessCheck s.env).fault? = some .undefined := by rw [accessCheck_el0 hel]; rfl
      obtain ⟨s', hnoop, hconds, hexec⟩ := failedConditionMayStillFault i s .undefined ha hp hcheck
      cases hdraw : Config.draw s.draws with
      | true => exact .inl (by simpa [hdraw] using hexec)
      | false => exact .inr (.inr ⟨s', by simpa [hdraw] using hexec, hnoop, hconds⟩)

/-- The same of the instruction at the pc, which may also be none. -/
theorem runInstruction_el0 {s : State} (hel : s.env.el = .el0) :
    runInstruction s = .fault .undefined ∨ (∃ r, runInstruction s = .refused r) ∨
      ∃ s', runInstruction s = .next s' ∧ NoOp 1 s s' ∧ (s'.itConds = s.itConds ∨ s'.itConds = s.itConds.tail) := by
  cases hfetch : s.fetch with
  | error r => exact .inr (.inl ⟨r, runInstruction_of_fetch_error hfetch⟩)
  | ok i =>
    rw [runInstruction_of_fetch_ok hfetch]
    obtain hfault | hrefused | ⟨s', hexec, hnoop, hconds⟩ := exec_el0 i hel
    · exact .inl hfault
    · exact .inr (.inl hrefused)
    · exact .inr (.inr ⟨s', hexec, hnoop, by rw [hconds]; exact condsAfter_cases i s⟩)

/-- Settles O49: the step is the instruction at the pc of the state without the event that scheduled it. -/
theorem el0CannotChangeFpexc : Obligations.El0CannotChangeFpexc := by
  intro s hel hinstr
  have hstep : step s = runInstruction { s with events := s.events.tail } := by
    obtain he | ⟨rest, he⟩ := hinstr
    · have htail : s.events.tail = s.events := by rw [he]; rfl
      rw [step_of_no_event he, htail]
    · rw [step_of_scheduled he, he]; rfl
  rw [hstep]
  exact runInstruction_el0 (s := { s with events := s.events.tail }) hel

end Sys2Proof.Machine
end

/-! SUPPORT. The fields of FPEXC under a read, a write and a reset, and the inputs of a recording of trapped
exceptions. -/

section
namespace Sys2Proof.Machine

/-! ### Configurations -/

section
variable {p : Params}

theorem isCfgA_eq_false (h : cfgName p ≠ .cfgA) : isCfgA p = false := by
  simpa [cfgName_eq_cfgA] using h

theorem isCfgD_eq_false (h : cfgName p ≠ .cfgD) : isCfgD p = false := by
  simpa [cfgName_eq_cfgD] using h

theorem trapFpexc_eq_false_of_cfgA (h : isCfgA p = true) : p.trapFpexc = false :=
  cfgName_eq_cfgA_or_cfgB.mp (.inl (cfgName_eq_cfgA.mpr h))

theorem isCfgA_eq_false_of_trap (h : p.trapFpexc = true) : isCfgA p = false := by
  simp [isCfgA, h]

/-- Bit 29 is a reserved position in CFG_A (R33, R38). -/
theorem isReserved_dex_of_cfgA (h : isCfgA p = true) : isReserved p 29 = true := by
  simp [isReserved, h]

/-! ### What a read returns (R51, R52) -/

theorem readDex_of_not_cfgA (f : Fpexc) (d : Nat → Bool) (h : isCfgA p = false) :
    readDex p f d = f.dex.known (d 29) := by
  simp [readDex, h]

theorem readFlag_of_trap (f : Fpexc) (d : Nat → Bool) (c : Cell) (n : Nat) (h : p.trapFpexc = true) :
    readFlag p f d c n = if readDex p f d = true ∧ readTfv p f d = true then c.known (d n) else d n := by
  simp [readFlag, h]

/-- DEX reads 1 where its cell is 1. -/
theorem readDex_of_one {f : Fpexc} (d : Nat → Bool) (hA : isCfgA p = false) (hdex : f.dex = .one) :
    readDex p f d = true := by
  rw [readDex_of_not_cfgA f d hA, hdex, known_one]

/-- TFV reads 1 in CFG_C, and in CFG_D where DEX and TFV are 1. -/
theorem readTfv_of_one {f : Fpexc} (d : Nat → Bool) (ht : p.trapFpexc = true) (hdex : f.dex = .one)
    (htfv : cfgName p = .cfgD → f.tfv = .one) : readTfv p f d = true := by
  cases hD : isCfgD p with
  | false => rw [readTfv_of_not_cfgD f d hD, ht]
  | true =>
    rw [readTfv_of_cfgD f d hD, if_pos (readDex_of_one d (isCfgA_eq_false_of_trap ht) hdex),
      htfv (cfgName_eq_cfgD.mpr hD), known_one]

/-- A flag of a read whose status is valid is its cell. -/
theorem fpexcRead_flag_valid {f : Fpexc} (d : Nat → Bool) (ht : p.trapFpexc = true) (hdex : f.dex = .one)
    (htfv : cfgName p = .cfgD → f.tfv = .one) (x : FpException) :
    (fpexcRead p f d).getLsbD (flagPos x) = (f.flags.get x).known (d (flagPos x)) := by
  rw [fpexcRead_flag, readFlag_of_trap f d _ _ ht,
    if_pos ⟨readDex_of_one d (isCfgA_eq_false_of_trap ht) hdex, readTfv_of_one d ht hdex htfv⟩]

theorem readResv_of_stored (f : Fpexc) (d : Nat → Bool) (n : Nat) (fixed : Bool) (h : p.res = .stored) :
    readResv p f d n fixed = (resvCell f.resv n).known (d n) := by
  simp [readResv, h]

/-! ### What a write leaves (R54) -/

theorem fpexcWrite_dex (f : Fpexc) (w : Word) (h : isCfgA p = false) :
    (fpexcWrite p f w).dex = Cell.ofBool (w.getLsbD 29) := by
  simp [fpexcWrite, h]

theorem get_flagsOfWord (w : Word) (x : FpException) : (flagsOfWord w).get x = Cell.ofBool (w.getLsbD (flagPos x)) := by
  cases x <;> rfl

theorem fpexcWrite_flags_of_trap (f : Fpexc) (w : Word) (h : p.trapFpexc = true) :
    (fpexcWrite p f w).flags = flagsOfWord w := by
  simp [fpexcWrite, h]

theorem fpexcWrite_flags_of_not_trap (f : Fpexc) (w : Word) (h : p.trapFpexc = false) :
    (fpexcWrite p f w).flags = f.flags := by
  simp [fpexcWrite, h]

theorem fpexcWrite_resv_of_hardwired (f : Fpexc) (w : Word) (h : p.res = .hardwired) :
    (fpexcWrite p f w).resv = f.resv := by
  simp [fpexcWrite, h]

theorem fpexcWrite_resv_of_stored (f : Fpexc) (w : Word) (h : p.res = .stored) :
    (fpexcWrite p f w).resv = { value := w &&& resvMask p, unknown := 0 } := by
  simp [fpexcWrite, h]

/-- In CFG_A with hardwired bits a write reaches EN alone. -/
theorem fpexcWrite_of_cfgA_hardwired (f : Fpexc) (w : Word) (hA : isCfgA p = true) (hr : p.res = .hardwired) :
    fpexcWrite p f w = { f with en := Cell.ofBool (w.getLsbD 30) } := by
  simp [fpexcWrite, hA, hr, trapFpexc_eq_false_of_cfgA hA]

/-- A stored reserved bit is read back as written (R53). -/
theorem fpexcRead_fpexcWrite_reserved (f : Fpexc) (d : Nat → Bool) (w : Word) {n : Nat} (hr : p.res = .stored)
    (hn : isReserved p n = true) : (fpexcRead p (fpexcWrite p f w) d).getLsbD n = w.getLsbD n := by
  rw [fpexcRead_reserved _ d hn, readResv_of_stored _ d n _ hr, fpexcWrite_resv_of_stored f w hr,
    resvCell_written hr hn, known_ofBool]

end

/-! ### The recordings that can occur (R156, R157) -/

theorem fpexcRecord_strideLen_of_not_raz {p : Params} (f : Fpexc) (op : ShortVectorOp) (h : p.strideLenRaz = false) :
    fpexcRecord p f (.strideLen op) = some { f with
      dex := .one
      tfv := if isCfgD p then .zero else f.tfv
      flags := if p.trapFpexc then flagsUnknown else f.flags } := by
  simp [fpexcRecord, h]

theorem fpexcRecord_trappedFp_of_trap {p : Params} (f : Fpexc) (half flush : Bool) (t : PerException Bool)
    (h : p.trapFpexc = true) :
    fpexcRecord p f (.trappedFp half flush t) = some { f with
      dex := .one
      tfv := if isCfgD p then .one else f.tfv
      flags := recordFlags f.flags t } := by
  simp [fpexcRecord, h]

/-! ### The inputs of a recording of trapped exceptions (R158) -/

theorem forall_fpException {P : FpException → Prop} :
    (∀ x, P x) ↔ P .inputDenormal ∧ P .inexact ∧ P .underflow ∧ P .overflow ∧ P .divideByZero ∧ P .invalidOperation :=
  ⟨fun h => ⟨h _, h _, h _, h _, h _, h _⟩, fun ⟨h1, h2, h3, h4, h5, h6⟩ x => by cases x <;> assumption⟩

theorem someException_eq_true {t : PerException Bool} : someException t = true ↔ ∃ x, t.get x = true := by
  rw [← not_iff_not, not_exists, forall_fpException]
  simp [someException, PerException.get, and_assoc]

theorem allEnabled_eq_true {t en : PerException Bool} :
    allEnabled t en = true ↔ ∀ x, t.get x = true → en.get x = true := by
  rw [forall_fpException]
  simp [allEnabled, PerException.get, and_assoc, imp_iff_not_or]

/-- A set of trapped exceptions can be recorded exactly under the constraints of R158. -/
theorem causeAdmissible_trappedFp {e : Env} {half flush : Bool} {t : PerException Bool} :
    causeAdmissible e (.trappedFp half flush t) = true ↔
      (∃ x, t.get x = true) ∧ (∀ x, t.get x = true → e.fpscrEnables.get x = true) ∧
      (t.inputDenormal = true → e.fpscrFz = true ∧ flush = false) ∧
      (t.underflow = true → if half = true then e.fpscrFz16 = false else e.fpscrFz = false) := by
  have hunder : (!(if half = true then e.fpscrFz16 else e.fpscrFz)) = true ↔
      if half = true then e.fpscrFz16 = false else e.fpscrFz = false := by cases half <;> simp
  simp only [causeAdmissible, Bool.and_eq_true, Bool.or_eq_true, someException_eq_true, allEnabled_eq_true, hunder,
    Bool.not_eq_true', and_assoc, imp_iff_not_or, Bool.not_eq_true]

/-! ### The obligations -/

/-- Settles O28: hardwired, the fixed value; stored, the cell, which a write fills from its bit. -/
theorem reservedFieldsRule : Obligations.ReservedFieldsRule := by
  intro p f d w n hn
  refine ⟨fun hr => ⟨?_, fpexcWrite_resv_of_hardwired f w hr⟩,
    fun hr => ⟨?_, fpexcRead_fpexcWrite_reserved f d w hr hn⟩⟩
  · rw [fpexcRead_reserved f d hn, readResv_of_hardwired f d n _ hr]
  · rw [fpexcRead_reserved f d hn, readResv_of_stored f d n _ hr]

/-- Settles O25: outside CFG_A the cell's rules, in CFG_A those of a reserved bit, and what each cause leaves. -/
theorem dexFieldRule : Obligations.DexFieldRule := by
  intro p f d w
  refine ⟨fun h => ?_, fun h => ⟨fun hr => ?_, fun hr => ?_⟩, fun op f' hrec => ?_, fun half flush t f' hrec => ?_,
    fun f' hrec => ?_, fun h => ?_⟩
  · have hA := isCfgA_eq_false h
    exact ⟨by rw [fpexcRead_dex, readDex_of_not_cfgA f d hA], fpexcWrite_dex f w hA, fpexcReset_dex h⟩
  · have hA := cfgName_eq_cfgA.mp h
    have hbit : (0x20000000#32 : Word) = BitVec.twoPow 32 29 := by decide
    refine ⟨?_, ?_⟩
    · rw [fpexcRead_reserved f d (isReserved_dex_of_cfgA hA), readResv_of_hardwired f d 29 _ hr]
      rfl
    · rw [hbit, fpexcWrite_of_cfgA_hardwired f w hA hr, fpexcWrite_of_cfgA_hardwired f _ hA hr,
        getLsbD_xor_twoPow_of_ne w (by decide)]
  · have hn := isReserved_dex_of_cfgA (cfgName_eq_cfgA.mp h)
    exact ⟨by rw [fpexcRead_reserved f d hn, readResv_of_stored f d 29 _ hr], fpexcRead_fpexcWrite_reserved f d w hr hn⟩
  · obtain ⟨-, rfl⟩ := fpexcRecord_strideLen hrec
    rfl
  · obtain ⟨-, rfl⟩ := fpexcRecord_trappedFp hrec
    rfl
  · cases hrec
    refine ⟨fun hdex => ?_, fun h => ?_, fun ht x => ?_⟩
    · simp [recordUndefinedRow, hdex, Cell.keep0]
    · simp [recordUndefinedRow, cfgName_eq_cfgD.mp h]
    · simp [recordUndefinedRow, ht]
  · rw [fpexcRead_tfv, fpexcRead_dex]
    exact readTfv_of_cfgD f d (cfgName_eq_cfgD.mp h)

/-- Settles O27: without trapping there is no cell, with it the cell's rules; and the inputs that R158 asks of a
recording. -/
theorem flagFieldsRule : Obligations.FlagFieldsRule := by
  intro p f d w x
  refine ⟨fun ht => ⟨?_, ?_⟩, fun ht => ⟨?_, ?_, fpexcReset_flag ht x, fun half flush t hx => ?_⟩,
    fun e half flush t hadm => ?_⟩
  · rw [fpexcRead_flag, readFlag_of_not_trap f d _ _ ht]
  · rw [fpexcWrite_flags_of_not_trap f w ht]
  · rw [fpexcWrite_flags_of_trap f w ht, get_flagsOfWord]
  · rw [fpexcRead_flag, readFlag_of_trap f d _ _ ht, fpexcRead_dex, fpexcRead_tfv]
  · exact ⟨_, fpexcRecord_trappedFp_of_trap f half flush t ht, by simp [hx]⟩
  · obtain ⟨-, henabled, hdenormal, hunderflow⟩ := causeAdmissible_trappedFp.mp hadm
    exact ⟨henabled x, hdenormal, hunderflow⟩

end Sys2Proof.Machine
end

/-! SUPPORT. Reads of the whole register after a write and after a reset: which bits are determined, and to what, in
each configuration; and the write of a value that was read. -/

section
namespace Sys2Proof.Machine

/-! ### The positions of the register (R31) -/

/-- Two words are equal where they agree at EX, EN, DEX, TFV, the six flags and the reserved positions. -/
theorem word_ext_fields (p : Params) {v w : Word} (hex : v.getLsbD 31 = w.getLsbD 31)
    (hen : v.getLsbD 30 = w.getLsbD 30) (hdex : v.getLsbD 29 = w.getLsbD 29) (htfv : v.getLsbD 26 = w.getLsbD 26)
    (hflag : ∀ x, v.getLsbD (flagPos x) = w.getLsbD (flagPos x))
    (hresv : ∀ n, n ≠ 29 → isReserved p n = true → v.getLsbD n = w.getLsbD n) : v = w := by
  refine BitVec.eq_of_getLsbD_eq fun n hn => ?_
  by_cases hr : n ≠ 29 ∧ isReserved p n = true
  · exact hresv n hr.1 hr.2
  · have hpos : n = 31 ∨ n = 30 ∨ n = 29 ∨ n = 26 ∨ n = 7 ∨ n = 4 ∨ n = 3 ∨ n = 2 ∨ n = 1 ∨ n = 0 := by
      simp only [isReserved, Bool.or_eq_true, Bool.and_eq_true, decide_eq_true_eq, beq_iff_eq] at hr
      omega
    obtain rfl | rfl | rfl | rfl | rfl | rfl | rfl | rfl | rfl | rfl := hpos
    · exact hex
    · exact hen
    · exact hdex
    · exact htfv
    · exact hflag .inputDenormal
    · exact hflag .inexact
    · exact hflag .underflow
    · exact hflag .overflow
    · exact hflag .divideByZero
    · exact hflag .invalidOperation

/-! ### The masks of the vectors' tables -/

/-- The bits that a read returns as they were written (section 2.2 of the vectors). -/
def keptMask : CfgName → ResKind → Word
  | .cfgA, .hardwired => 0x40000000#32
  | _, .hardwired => 0x60000000#32
  | _, .stored => 0x7BFFFF60#32

/-- The bits that read 1 in a configuration whatever its cells hold: bits 10:8 where hardwired, TFV in CFG_C. -/
def fixedOnes (c : CfgName) (r : ResKind) : Word :=
  (match r with | .hardwired => 0x00000700#32 | .stored => 0#32) |||
    (match c with | .cfgC => 0x04000000#32 | _ => 0#32)

/-- The bits whose value a read has only where the status is valid. -/
def statusMask : CfgName → Word
  | .cfgA => 0#32
  | .cfgB => 0#32
  | .cfgC => 0x0000009F#32
  | .cfgD => 0x0400009F#32

/-- The bits other than EN that are UNKNOWN after a reset (section 2.1 of the vectors). -/
def resetMask (c : CfgName) (r : ResKind) : Word :=
  statusMask c ||| (match c, r with | .cfgA, .hardwired => 0#32 | _, _ => 0x20000000#32) |||
    (match r with | .hardwired => 0#32 | .stored => 0x1BFFFF60#32)

/-- Whether a position is that of a flag. -/
def isFlagPos (n : Nat) : Bool := decide (n ≤ 4) || n == 7

theorem isCfgA_eq (p : Params) : isCfgA p = decide (cfgName p = .cfgA) := by
  simp [cfgName_eq_cfgA]

theorem isCfgD_eq (p : Params) : isCfgD p = decide (cfgName p = .cfgD) := by
  simp [cfgName_eq_cfgD]

theorem trapFpexc_eq (p : Params) : p.trapFpexc = decide (cfgName p = .cfgC ∨ cfgName p = .cfgD) := by
  cases p with
  | mk _ tr rz => cases tr <;> cases rz <;> simp [cfgName]

section
variable (p : Params) {n : Nat} (hn : n < 32)
include hn

theorem getLsbD_keptMask :
    (keptMask (cfgName p) p.res).getLsbD n =
      (n == 30 || (n == 29 && !isCfgA p) || (p.res == .stored && isReserved p n)) := by
  simp only [isReserved, isCfgA_eq]
  generalize cfgName p = c, p.res = r
  cases c <;> cases r <;> revert n <;> decide

theorem getLsbD_fixedOnes :
    (fixedOnes (cfgName p) p.res).getLsbD n =
      ((p.res == .hardwired && decide (8 ≤ n ∧ n ≤ 10)) || (n == 26 && p.trapFpexc && !isCfgD p)) := by
  simp only [isCfgD_eq, trapFpexc_eq]
  generalize cfgName p = c, p.res = r
  cases c <;> cases r <;> revert n <;> decide

theorem getLsbD_statusMask :
    (statusMask (cfgName p)).getLsbD n = ((p.trapFpexc && isFlagPos n) || (n == 26 && isCfgD p)) := by
  simp only [isCfgD_eq, trapFpexc_eq]
  generalize cfgName p = c
  cases c <;> revert n <;> decide

theorem getLsbD_resetMask :
    (resetMask (cfgName p) p.res).getLsbD n =
      ((p.trapFpexc && isFlagPos n) || (n == 26 && isCfgD p) || (n == 29 && !isCfgA p) ||
        (p.res == .stored && isReserved p n)) := by
  simp only [isReserved, isCfgA_eq, isCfgD_eq, trapFpexc_eq]
  generalize cfgName p = c, p.res = r
  cases c <;> cases r <;> revert n <;> decide

end

/-- A reserved position is no other field's. -/
theorem ne_of_isReserved {p : Params} {n : Nat} (hn : isReserved p n = true) :
    (n == 30) = false ∧ (n == 26) = false ∧ isFlagPos n = false := by
  simp only [isReserved, Bool.or_eq_true, Bool.and_eq_true, decide_eq_true_eq, beq_iff_eq] at hn
  simp only [isFlagPos, Bool.or_eq_false_iff, decide_eq_false_iff_not, beq_eq_false_iff_ne]
  omega

/-- A flag's position is no other field's. -/
theorem flagPos_ne (p : Params) (x : FpException) :
    flagPos x < 32 ∧ (flagPos x == 30) = false ∧ (flagPos x == 29) = false ∧ (flagPos x == 26) = false ∧
      decide (8 ≤ flagPos x ∧ flagPos x ≤ 10) = false ∧ isFlagPos (flagPos x) = true ∧
      isReserved p (flagPos x) = false := by
  cases x <;> simp [flagPos, isFlagPos, isReserved]

/-- Bit `n` of a word outside a mask. -/
theorem getLsbD_outside (v m : Word) {n : Nat} (hn : n < 32) :
    (v &&& ~~~m).getLsbD n = (v.getLsbD n && !m.getLsbD n) := by
  simp [hn]

/-- Bit `n` of a word inside a mask, with some bits set. -/
theorem getLsbD_masked_or (v m k : Word) (n : Nat) :
    ((v &&& m) ||| k).getLsbD n = ((v.getLsbD n && m.getLsbD n) || k.getLsbD n) := by
  rw [BitVec.getLsbD_or, BitVec.getLsbD_and]

section
variable {n : Nat} (hn : n < 32)
include hn

theorem getLsbD_flagBits : (0x0000009F#32).getLsbD n = isFlagPos n := by revert n; decide

theorem getLsbD_tfvBit : (0x04000000#32).getLsbD n = (n == 26) := by revert n; decide

theorem getLsbD_enBit : (0x40000000#32).getLsbD n = (n == 30) := by revert n; decide

end

/-! ### Reads after a write (R52, R54) -/

section
variable (p : Params) (f : Fpexc) (d : Nat → Bool) (w : Word)

/-- Bit 29 of a read after a write: as written where DEX is a cell or a stored reserved bit, and 0 otherwise. -/
theorem readDex_fpexcWrite :
    readDex p (fpexcWrite p f w) d = (w.getLsbD 29 && (!isCfgA p || p.res == .stored)) := by
  cases hA : isCfgA p with
  | false => rw [readDex_of_not_cfgA _ d hA, fpexcWrite_dex f w hA, known_ofBool]; simp
  | true =>
    have hn := isReserved_dex_of_cfgA hA
    rw [← fpexcRead_dex]
    cases hr : p.res with
    | hardwired => rw [fpexcRead_reserved _ d hn, readResv_of_hardwired _ d _ _ hr]; simp
    | stored => rw [fpexcRead_fpexcWrite_reserved f d w hr hn]; simp

/-- A reserved bit of a read after a write: as written where stored, its fixed value where hardwired. -/
theorem fpexcRead_reserved_fpexcWrite {n : Nat} (hn : isReserved p n = true) :
    (fpexcRead p (fpexcWrite p f w) d).getLsbD n =
      ((w.getLsbD n && p.res == .stored) || (p.res == .hardwired && decide (8 ≤ n ∧ n ≤ 10))) := by
  cases hr : p.res with
  | hardwired => rw [fpexcRead_reserved _ d hn, readResv_of_hardwired _ d _ _ hr]; simp
  | stored => rw [fpexcRead_fpexcWrite_reserved f d w hr hn]; simp

/-- The bits outside the status mask are determined by the word written. -/
theorem readAfterWrite_determined :
    fpexcRead p (fpexcWrite p f w) d &&& ~~~statusMask (cfgName p) =
      (w &&& keptMask (cfgName p) p.res) ||| fixedOnes (cfgName p) p.res := by
  have bits {n : Nat} (hn : n < 32)
      (h : ((fpexcRead p (fpexcWrite p f w) d).getLsbD n && !((p.trapFpexc && isFlagPos n) || (n == 26 && isCfgD p))) =
        ((w.getLsbD n && (n == 30 || (n == 29 && !isCfgA p) || (p.res == .stored && isReserved p n))) ||
          ((p.res == .hardwired && decide (8 ≤ n ∧ n ≤ 10)) || (n == 26 && p.trapFpexc && !isCfgD p)))) :
      (fpexcRead p (fpexcWrite p f w) d &&& ~~~statusMask (cfgName p)).getLsbD n =
        ((w &&& keptMask (cfgName p) p.res) ||| fixedOnes (cfgName p) p.res).getLsbD n := by
    rw [getLsbD_outside _ _ hn, getLsbD_masked_or, getLsbD_statusMask p hn, getLsbD_keptMask p hn,
      getLsbD_fixedOnes p hn, h]
  refine word_ext_fields p (bits (by decide) ?_) (bits (by decide) ?_) (bits (by decide) ?_) (bits (by decide) ?_)
    (fun x => bits (flagPos_ne p x).1 ?_) fun n h29 hn => bits (lt_of_isReserved hn) ?_
  · rw [fpexcRead_ex]; simp [isReserved]
  · rw [fpexcRead_en]; simp [isReserved, isFlagPos, fpexcWrite]
  · rw [fpexcRead_dex, readDex_fpexcWrite]; cases hA : isCfgA p <;> simp [isReserved, isFlagPos, hA]
  · rw [fpexcRead_tfv]
    cases hD : isCfgD p with
    | false => rw [readTfv_of_not_cfgD _ d hD]; simp [isReserved, isFlagPos]
    | true => simp [isReserved, isFlagPos]
  · obtain ⟨-, h30, h29, h26, h8, hflag, hresv⟩ := flagPos_ne p x
    cases ht : p.trapFpexc with
    | false => rw [fpexcRead_flag, readFlag_of_not_trap _ d _ _ ht, h30, h29, h26, h8, hresv]; simp
    | true => rw [h30, h29, h26, h8, hflag, hresv]; simp
  · obtain ⟨h30, h26, hflag⟩ := ne_of_isReserved hn
    rw [fpexcRead_reserved_fpexcWrite p f d w hn, h30, beq_eq_false_iff_ne.mpr h29, h26, hflag, hn]; simp

/-- Without trapping there is no status that could be invalid: the whole read is determined. -/
theorem readAfterWrite_of_not_trap (h : cfgName p = .cfgA ∨ cfgName p = .cfgB) :
    fpexcRead p (fpexcWrite p f w) d = (w &&& keptMask (cfgName p) p.res) ||| fixedOnes (cfgName p) p.res := by
  have hmask : statusMask (cfgName p) = 0#32 := by obtain h | h := h <;> rw [h] <;> rfl
  rw [← readAfterWrite_determined p f d w, hmask, BitVec.not_zero, BitVec.and_allOnes]

/-- With the status valid, the bits of the status mask are TFV, which reads 1, and the flags, which read as written. -/
theorem readAfterWrite_status (ht : p.trapFpexc = true) (hdex : w.getLsbD 29 = true)
    (htfv : cfgName p = .cfgD → f.tfv = .one) :
    fpexcRead p (fpexcWrite p f w) d &&& statusMask (cfgName p) =
      (w &&& 0x0000009F#32) ||| (0x04000000#32 &&& statusMask (cfgName p)) := by
  have hcell : (fpexcWrite p f w).dex = .one := by
    rw [fpexcWrite_dex f w (isCfgA_eq_false_of_trap ht), hdex, ofBool_true]
  have bits {n : Nat} (hn : n < 32)
      (h : ((fpexcRead p (fpexcWrite p f w) d).getLsbD n && (isFlagPos n || (n == 26 && isCfgD p))) =
        ((w.getLsbD n && isFlagPos n) || (n == 26 && (isFlagPos n || (n == 26 && isCfgD p))))) :
      (fpexcRead p (fpexcWrite p f w) d &&& statusMask (cfgName p)).getLsbD n =
        ((w &&& 0x0000009F#32) ||| (0x04000000#32 &&& statusMask (cfgName p))).getLsbD n := by
    rw [getLsbD_masked_or, BitVec.getLsbD_and, BitVec.getLsbD_and, getLsbD_statusMask p hn, getLsbD_flagBits hn,
      getLsbD_tfvBit hn, ht, Bool.true_and, h]
  refine word_ext_fields p (bits (by decide) ?_) (bits (by decide) ?_) (bits (by decide) ?_) (bits (by decide) ?_)
    (fun x => bits (flagPos_ne p x).1 ?_) fun n h29 hn => bits (lt_of_isReserved hn) ?_
  · simp [isFlagPos]
  · simp [isFlagPos]
  · simp [isFlagPos]
  · rw [fpexcRead_tfv, readTfv_of_one d ht hcell htfv]; simp [isFlagPos]
  · obtain ⟨-, -, -, h26, -, hflag, -⟩ := flagPos_ne p x
    rw [fpexcRead_flag_valid d ht hcell htfv, fpexcWrite_flags_of_trap f w ht, get_flagsOfWord, known_ofBool, h26,
      hflag]
    simp
  · obtain ⟨-, h26, hflag⟩ := ne_of_isReserved hn
    rw [h26, hflag]
    simp

/-- A word is its part outside a mask with its part inside. -/
theorem outside_or_inside (v m : Word) : (v &&& ~~~m) ||| (v &&& m) = v := by
  rw [← BitVec.and_or_distrib_left, BitVec.not_or_self, BitVec.and_allOnes]

/-- Two masked words joined, each with bits of its own set. -/
theorem masked_or_or (v m m' k k' : Word) :
    ((v &&& m) ||| k) ||| ((v &&& m') ||| k') = (v &&& (m ||| m')) ||| (k ||| k') := by
  rw [BitVec.and_or_distrib_left]
  ac_rfl

/-- With the status valid, the whole read is determined by the word written. -/
theorem readAfterWrite_valid (ht : p.trapFpexc = true) (hdex : w.getLsbD 29 = true)
    (htfv : cfgName p = .cfgD → f.tfv = .one) :
    fpexcRead p (fpexcWrite p f w) d =
      (w &&& (keptMask (cfgName p) p.res ||| 0x0000009F#32)) |||
        (fixedOnes (cfgName p) p.res ||| (0x04000000#32 &&& statusMask (cfgName p))) := by
  rw [← outside_or_inside (fpexcRead p (fpexcWrite p f w) d) (statusMask (cfgName p)), readAfterWrite_determined,
    readAfterWrite_status p f d w ht hdex htfv, masked_or_or]

end

/-! ### Reads after a reset (R52, R69) -/

/-- The bits that are UNKNOWN in a read after a reset, EN among them where the PE does not reset into AArch32. -/
def resetUnknown (p : Params) : Word :=
  (if p.resetAArch32 = true then 0#32 else 0x40000000#32) ||| resetMask (cfgName p) p.res

theorem getLsbD_resetUnknown (p : Params) {n : Nat} (hn : n < 32) :
    (resetUnknown p).getLsbD n =
      ((n == 30 && !p.resetAArch32) || (p.trapFpexc && isFlagPos n) || (n == 26 && isCfgD p) ||
        (n == 29 && !isCfgA p) || (p.res == .stored && isReserved p n)) := by
  have hen : (if p.resetAArch32 = true then 0#32 else 0x40000000#32).getLsbD n = (n == 30 && !p.resetAArch32) := by
    cases p.resetAArch32 with
    | true => simp
    | false => simpa using getLsbD_enBit hn
  rw [resetUnknown, BitVec.getLsbD_or, hen, getLsbD_resetMask p hn]
  simp only [Bool.or_assoc]

/-- The bits that are not UNKNOWN after a reset read their fixed value. -/
theorem readAfterReset_determined (p : Params) (d : Nat → Bool) :
    fpexcRead p (fpexcReset p) d &&& ~~~resetUnknown p = fixedOnes (cfgName p) p.res := by
  have bits {n : Nat} (hn : n < 32)
      (h : ((fpexcRead p (fpexcReset p) d).getLsbD n &&
          !((n == 30 && !p.resetAArch32) || (p.trapFpexc && isFlagPos n) || (n == 26 && isCfgD p) ||
            (n == 29 && !isCfgA p) || (p.res == .stored && isReserved p n))) =
        ((p.res == .hardwired && decide (8 ≤ n ∧ n ≤ 10)) || (n == 26 && p.trapFpexc && !isCfgD p))) :
      (fpexcRead p (fpexcReset p) d &&& ~~~resetUnknown p).getLsbD n = (fixedOnes (cfgName p) p.res).getLsbD n := by
    rw [getLsbD_outside _ _ hn, getLsbD_resetUnknown p hn, getLsbD_fixedOnes p hn, h]
  refine word_ext_fields p (bits (by decide) ?_) (bits (by decide) ?_) (bits (by decide) ?_) (bits (by decide) ?_)
    (fun x => bits (flagPos_ne p x).1 ?_) fun n h29 hn => bits (lt_of_isReserved hn) ?_
  · rw [fpexcRead_ex]; simp
  · rw [fpexcRead_en]; cases hA : p.resetAArch32 <;> simp [fpexcReset, hA]
  · cases hA : isCfgA p with
    | false => simp
    | true =>
      have hn := isReserved_dex_of_cfgA hA
      rw [fpexcRead_reserved _ d hn]
      cases hr : p.res with
      | hardwired => rw [readResv_of_hardwired _ d _ _ hr]; simp
      | stored => simp [hn]
  · rw [fpexcRead_tfv]
    cases hD : isCfgD p with
    | false => rw [readTfv_of_not_cfgD _ d hD]; simp [isReserved, isFlagPos]
    | true => simp [isReserved, isFlagPos]
  · obtain ⟨-, h30, h29, h26, h8, hflag, hresv⟩ := flagPos_ne p x
    rw [h30, h29, h26, h8, hflag, hresv]
    cases ht : p.trapFpexc with
    | false => rw [fpexcRead_flag, readFlag_of_not_trap _ d _ _ ht]; simp
    | true => simp
  · obtain ⟨h30, h26, hflag⟩ := ne_of_isReserved hn
    rw [h30, beq_eq_false_iff_ne.mpr h29, h26, hflag, hn, fpexcRead_reserved _ d hn]
    cases hr : p.res with
    | hardwired => rw [readResv_of_hardwired _ d _ _ hr]; simp
    | stored => simp

/-! ### Writing back what was read -/

theorem perException_ext {α : Type} {u v : PerException α} (h : ∀ x, u.get x = v.get x) : u = v := by
  obtain ⟨h1, h2, h3, h4, h5, h6⟩ := forall_fpException.mp h
  cases u
  cases v
  simp_all [PerException.get]

theorem fpexc_ext {f g : Fpexc} (hen : f.en = g.en) (hdex : f.dex = g.dex) (htfv : f.tfv = g.tfv)
    (hflags : f.flags = g.flags) (hresv : f.resv = g.resv) : f = g := by
  cases f
  cases g
  simp_all

/-- The stored reserved bits of a read are the values of the cells where none is `U`. -/
theorem fpexcRead_and_resvMask {p : Params} {f : Fpexc} (d : Nat → Bool) (hr : p.res = .stored)
    (hu : f.resv.unknown = 0) (hpos : f.resv.value &&& ~~~resvMask p = 0) :
    fpexcRead p f d &&& resvMask p = f.resv.value := by
  refine BitVec.eq_of_getLsbD_eq fun n hn => ?_
  have hmask : (resvMask p).getLsbD n = isReserved p n := by rw [getLsbD_resvMask]; simp [hr, hn]
  rw [BitVec.getLsbD_and, hmask]
  cases hres : isReserved p n with
  | true =>
    rw [fpexcRead_reserved f d hres, readResv_of_stored f d n _ hr]
    simp [resvCell, hu]
  | false =>
    have hzero : (f.resv.value &&& ~~~resvMask p).getLsbD n = false := by simp [hpos]
    rw [getLsbD_outside _ _ hn, hmask, hres] at hzero
    simpa using hzero.symm

/-! ### The obligations -/

/-- Settles O29: the masks of each configuration in the general equations. -/
theorem readAfterWrite : Obligations.ReadAfterWrite := by
  intro p f d w
  have hnotrap := readAfterWrite_of_not_trap p f d w
  have hread := readAfterWrite_determined p f d w
  have hvalid := readAfterWrite_valid p f d w
  refine ⟨fun hr => ⟨fun hc => ?_, fun hc => ?_, fun hc => ⟨?_, fun hdex => ?_⟩, fun hc => ⟨?_, fun hdex htfv => ?_⟩⟩,
    fun hr => ⟨fun hc => ?_, fun hc => ⟨?_, fun hdex => ?_⟩, fun hc => ⟨?_, fun hdex htfv => ?_⟩⟩⟩
  · simpa [hc, hr, keptMask, fixedOnes] using hnotrap (.inl hc)
  · simpa [hc, hr, keptMask, fixedOnes] using hnotrap (.inr hc)
  · simpa [hc, hr, statusMask, keptMask, fixedOnes] using hread
  · have ht : p.trapFpexc = true := by simp [trapFpexc_eq, hc]
    simpa [hc, hr, statusMask, keptMask, fixedOnes] using hvalid ht hdex (by simp [hc])
  · simpa [hc, hr, statusMask, keptMask, fixedOnes] using hread
  · have ht : p.trapFpexc = true := by simp [trapFpexc_eq, hc]
    simpa [hc, hr, statusMask, keptMask, fixedOnes] using hvalid ht hdex fun _ => htfv
  · rw [hnotrap hc, hr]
    obtain hc | hc := hc <;> simp [hc, keptMask, fixedOnes]
  · simpa [hc, hr, statusMask, keptMask, fixedOnes] using hread
  · have ht : p.trapFpexc = true := by simp [trapFpexc_eq, hc]
    simpa [hc, hr, statusMask, keptMask, fixedOnes] using hvalid ht hdex (by simp [hc])
  · simpa [hc, hr, statusMask, keptMask, fixedOnes] using hread
  · have ht : p.trapFpexc = true := by simp [trapFpexc_eq, hc]
    simpa [hc, hr, statusMask, keptMask, fixedOnes] using hvalid ht hdex fun _ => htfv

/-- Settles O32: the masks of each configuration in the general equation. -/
theorem readAfterReset : Obligations.ReadAfterReset := by
  intro p d
  have hread := readAfterReset_determined p d
  unfold resetUnknown at hread
  refine ⟨fun hr => ⟨fun hc => ?_, fun hc => ?_, fun hc => ?_, fun hc => ?_⟩,
    fun hr => ⟨fun hAB => hAB.elim (fun hc => ?_) fun hc => ?_, fun hc => ?_, fun hc => ?_⟩⟩ <;>
    simpa [hc, hr, resetMask, statusMask, fixedOnes] using hread

/-- Settles O30: every cell is the cell of the bit it is read as. -/
theorem writeBackPreserves : Obligations.WriteBackPreserves := by
  intro p f d hwf hen hdex hresv hflags hvalid
  obtain ⟨-, -, -, hvalue, -, -⟩ := fpexcWf_iff.mp hwf
  have hEn : Cell.ofBool ((fpexcRead p f d).getLsbD 30) = f.en := by rw [fpexcRead_en, ofBool_known hen]
  have hDex : (fpexcWrite p f (fpexcRead p f d)).dex = f.dex := by
    cases hA : isCfgA p with
    | true => simp [fpexcWrite, hA]
    | false => rw [fpexcWrite_dex f _ hA, fpexcRead_dex, readDex_of_not_cfgA f d hA, ofBool_known hdex]
  have hFlags : (fpexcWrite p f (fpexcRead p f d)).flags = f.flags := by
    cases ht : p.trapFpexc with
    | false => rw [fpexcWrite_flags_of_not_trap f _ ht]
    | true =>
      obtain ⟨hone, htfv⟩ := hvalid ht
      refine perException_ext fun x => ?_
      rw [fpexcWrite_flags_of_trap f _ ht, get_flagsOfWord, fpexcRead_flag_valid d ht hone htfv,
        ofBool_known (hflags x)]
  have hResv : (fpexcWrite p f (fpexcRead p f d)).resv = f.resv := by
    cases hr : p.res with
    | hardwired => rw [fpexcWrite_resv_of_hardwired f _ hr]
    | stored => rw [fpexcWrite_resv_of_stored f _ hr, fpexcRead_and_resvMask d hr hresv hvalue, ← hresv]
  exact fpexc_ext hEn hDex rfl hFlags hResv

end Sys2Proof.Machine
end

/-! SUPPORT. A pending recording as a step, and what a handler reads after it. -/

section
namespace Sys2Proof.Machine

/-! ### The step of a pending exception (R156) -/

section
variable {s : State} {cause : Cause} {rest : List Event}

/-- An exception of the encoding space is recorded where its cause can occur and its inputs are admissible. -/
theorem step_record {f : Fpexc} (hf : s.params.haveFp = true) (he : s.events = .syncException true cause :: rest)
    (hrec : fpexcRecord s.params s.fpexc cause = some f) (hadm : causeAdmissible s.env cause = true) :
    step s = .next { s with events := rest, fpexc := f } := by
  rw [step_event he hf]
  simp [runEvent, stepSyncException, hrec, hadm]

theorem step_record_cannotOccur (hf : s.params.haveFp = true) (he : s.events = .syncException true cause :: rest)
    (hrec : fpexcRecord s.params s.fpexc cause = none) : step s = .refused .recordCannotOccur := by
  rw [step_event he hf]
  simp [runEvent, stepSyncException, hrec]

theorem step_record_inadmissible {f : Fpexc} (hf : s.params.haveFp = true)
    (he : s.events = .syncException true cause :: rest) (hrec : fpexcRecord s.params s.fpexc cause = some f)
    (hadm : causeAdmissible s.env cause = false) : step s = .refused .recordInadmissible := by
  rw [step_event he hf]
  simp [runEvent, stepSyncException, hrec, hadm]

/-- What a step with an exception pending recorded, if it went on. -/
theorem step_record_eq_next {s' : State} {cp : Bool} (he : s.events = .syncException cp cause :: rest)
    (h : step s = .next s') :
    (cp = true ∧ fpexcRecord s.params s.fpexc cause = some s'.fpexc ∧ causeAdmissible s.env cause = true) ∨
      (cp = false ∧ s'.fpexc = s.fpexc) := by
  rw [step_of_event he] at h
  obtain ⟨c, f, hev, hrec, hadm, rfl⟩ | ⟨c, hev, rfl⟩ | ⟨_, hev, -⟩ | ⟨hev, -⟩ | ⟨_, _, hev, -⟩ | ⟨_, hev, -⟩ |
    ⟨hev, -⟩ := stepEvent_eq_next h <;> cases hev
  · exact .inl ⟨rfl, hrec, hadm⟩
  · exact .inr ⟨rfl, rfl⟩

/-- A recording reaches DEX, TFV and the flags alone. -/
theorem recordedOnly_of_fpexcRecord {f : Fpexc} (hrec : fpexcRecord s.params s.fpexc cause = some f) :
    RecordedOnly rest s { s with events := rest, fpexc := f } := by
  obtain ⟨hen, hresv⟩ := fpexcRecord_keeps hrec
  exact ⟨hen, hresv, rfl, rfl, rfl, rfl, rfl, rfl, rfl, rfl, fun _ => rfl⟩

end

/-! ### The cells of the DEX = 0 row (R156, D15) -/

/-- The causes of the DEX = 0 row record it, and are always admissible (D21). -/
theorem fpexcRecord_undefinedRow (p : Params) (f : Fpexc) (e : Env) {cause : Cause}
    (h : cause = .unallocated ∨ cause = .otherSync) :
    fpexcRecord p f cause = some (recordUndefinedRow p f) ∧ causeAdmissible e cause = true := by
  obtain rfl | rfl := h <;> exact ⟨rfl, rfl⟩

theorem keep0_zero : Cell.zero.keep0 = .zero := rfl

theorem keep0_of_ne_zero {c : Cell} (h : c ≠ .zero) : c.keep0 = .u := by
  cases c with
  | zero => exact absurd rfl h
  | one => rfl
  | u => rfl

section
variable {p : Params} (f : Fpexc)

theorem recordUndefinedRow_dex_of_cfgA (h : isCfgA p = true) : (recordUndefinedRow p f).dex = f.dex := by
  simp [recordUndefinedRow, h]

theorem recordUndefinedRow_dex (h : isCfgA p = false) : (recordUndefinedRow p f).dex = f.dex.keep0 := by
  simp [recordUndefinedRow, h]

end

/-! ### The obligations on recordings -/

/-- Settles O34: the row's cells, in each configuration. -/
theorem recordUndefinedCause : Obligations.RecordUndefinedCause := by
  intro s cause rest hf hcause he
  obtain ⟨hrec, hadm⟩ := fpexcRecord_undefinedRow s.params s.fpexc s.env hcause
  refine ⟨_, step_record hf he hrec hadm, recordedOnly_of_fpexcRecord hrec, fun h => ?_,
    fun h => ⟨fun hdex => ?_, fun hdex => ?_⟩, fun h => ?_, fun h => ?_, fun ht x => ?_, fun ht => ?_⟩
  · exact recordUndefinedRow_dex_of_cfgA _ (cfgName_eq_cfgA.mp h)
  · exact (recordUndefinedRow_dex _ (isCfgA_eq_false h)).trans (by rw [hdex, keep0_zero])
  · exact (recordUndefinedRow_dex _ (isCfgA_eq_false h)).trans (keep0_of_ne_zero hdex)
  · simp [recordUndefinedRow, cfgName_eq_cfgD.mp h]
  · simp [recordUndefinedRow, isCfgD_eq_false h]
  · simp [recordUndefinedRow, ht]
  · simp [recordUndefinedRow, ht]

/-- Settles O35: the cause cannot occur with RAZ fields, needs one of them non-zero, and then has its row's cells. -/
theorem recordStrideLenCause : Obligations.RecordStrideLenCause := by
  intro s op rest hf he
  refine ⟨fun hraz => ?_, fun hraz hfields => ?_, fun hraz hstride hlen => ?_⟩
  · exact step_record_cannotOccur hf he (by simp [fpexcRecord, hraz])
  · have hrec := fpexcRecord_strideLen_of_not_raz s.fpexc op hraz
    have hadm : causeAdmissible s.env (.strideLen op) = true := by simpa [causeAdmissible] using hfields
    refine ⟨_, step_record hf he hrec hadm, recordedOnly_of_fpexcRecord hrec, rfl, fun h => ?_, fun h => ?_,
      fun ht x => ?_, fun ht => ?_⟩
    · simp [cfgName_eq_cfgD.mp h]
    · simp [isCfgD_eq_false h]
    · simp [ht]
    · simp [ht]
  · exact step_record_inadmissible hf he (fpexcRecord_strideLen_of_not_raz s.fpexc op hraz)
      (by simp [causeAdmissible, hstride, hlen])

/-- Settles O36: the cause cannot occur without trapping; an admissible set has its row's cells. -/
theorem recordTrappedCause : Obligations.RecordTrappedCause := by
  intro s half flush t rest hf he
  refine ⟨fun ht => ?_, fun ht hsome henabled hdenormal hunderflow => ?_⟩
  · exact step_record_cannotOccur hf he (by simp [fpexcRecord, ht])
  · have hrec := fpexcRecord_trappedFp_of_trap s.fpexc half flush t ht
    have hadm := causeAdmissible_trappedFp.mpr ⟨hsome, henabled, hdenormal, hunderflow⟩
    refine ⟨_, step_record hf he hrec hadm, recordedOnly_of_fpexcRecord hrec, rfl, fun h => ?_, fun h => ?_,
      fun x => ?_⟩
    · simp [cfgName_eq_cfgD.mp h]
    · simp [isCfgD_eq_false h]
    · refine ⟨fun hx => ?_, fun hx hzero => ?_, fun hx hne => ?_⟩
      · simp [hx]
      · simp [hx, hzero, keep0_zero]
      · simp [hx, keep0_of_ne_zero hne]

/-- Settles O37: the first needs FPSCR.FZ 1, the second FPSCR.FZ 0. -/
theorem denormalExcludesUnderflow : Obligations.DenormalExcludesUnderflow := by
  rintro s s' flush t rest he h ⟨hdenormal, hunderflow⟩
  obtain ⟨-, -, hadm⟩ | ⟨hcp, -⟩ := step_record_eq_next he h
  · obtain ⟨-, -, hone, hzero⟩ := causeAdmissible_trappedFp.mp hadm
    obtain ⟨hfz, -⟩ := hone hdenormal
    simpa [hfz] using hzero hunderflow
  · cases hcp

/-- In CFG_A the only causes that can occur leave DEX, TFV and the flags, which are no cells there. -/
theorem fpexcRecord_of_cfgA {p : Params} {f f' : Fpexc} {cause : Cause} (hA : isCfgA p = true)
    (h : fpexcRecord p f cause = some f') : f' = f := by
  have ht := trapFpexc_eq_false_of_cfgA hA
  have hz : p.strideLenRaz = true := by simpa [isCfgA, ht] using hA
  have hrow : recordUndefinedRow p f = f := by simp [recordUndefinedRow, hA, ht, not_isCfgD_of_not_trap ht]
  cases cause with
  | unallocated => cases h; exact hrow
  | otherSync => cases h; exact hrow
  | strideLen op => simp [fpexcRecord, hz] at h
  | trappedFp half flush t => simp [fpexcRecord, ht] at h

/-- Settles O39: the event of another encoding space is dropped, and CFG_A has no cell that a recording reaches. -/
theorem nothingRecorded : Obligations.NothingRecorded := by
  refine ⟨fun s cause rest hf he => ?_, fun s s' cp cause rest hc he h => ?_⟩
  · rw [step_event he hf]
    rfl
  · obtain ⟨-, hrec, -⟩ | ⟨-, hkept⟩ := step_record_eq_next he h
    · exact fpexcRecord_of_cfgA (cfgName_eq_cfgA.mp hc) hrec
    · exact hkept

/-! ### What a handler reads (R160) -/

/-- After the DEX = 0 row: DEX 0, TFV 1 in CFG_C, and TFV and the flags 0 in CFG_A and CFG_B. -/
theorem read_recordUndefinedRow {p : Params} {f : Fpexc} (d : Nat → Bool) (hr : p.res = .hardwired)
    (hdex : f.dex = .zero) :
    let r := fpexcRead p (recordUndefinedRow p f) d
    r.getLsbD 29 = false ∧ (cfgName p = .cfgC → r.getLsbD 26 = true) ∧
      (cfgName p = .cfgA ∨ cfgName p = .cfgB → r.getLsbD 26 = false ∧ ∀ x, r.getLsbD (flagPos x) = false) := by
  refine ⟨?_, fun hC => ?_, fun hAB => ⟨?_, fun x => ?_⟩⟩
  · rw [fpexcRead_dex]
    cases hA : isCfgA p with
    | true => rw [readDex, if_pos hA, readResv_of_hardwired _ d _ _ hr]
    | false => rw [readDex_of_not_cfgA _ d hA, recordUndefinedRow_dex f hA, hdex, keep0_zero, known_zero]
  · rw [fpexcRead_tfv_of_not_cfgD _ d (by simp [hC]), hC]
    rfl
  · have ht := cfgName_eq_cfgA_or_cfgB.mp hAB
    rw [fpexcRead_tfv, readTfv_of_not_cfgD _ d (not_isCfgD_of_not_trap ht), ht]
  · rw [fpexcRead_flag, readFlag_of_not_trap _ d _ _ (cfgName_eq_cfgA_or_cfgB.mp hAB)]

/-- After the Stride/Len cause: DEX 1, TFV 0, and the flags 0 in CFG_B. -/
theorem read_recordStrideLen {p : Params} {f f' : Fpexc} {op : ShortVectorOp} (d : Nat → Bool)
    (hrec : fpexcRecord p f (.strideLen op) = some f') :
    let r := fpexcRead p f' d
    r.getLsbD 29 = true ∧ r.getLsbD 26 = false ∧ (cfgName p = .cfgB → ∀ x, r.getLsbD (flagPos x) = false) := by
  obtain ⟨hraz, rfl⟩ := fpexcRecord_strideLen hrec
  have hA : isCfgA p = false := by simp [isCfgA, hraz]
  refine ⟨?_, ?_, fun hB x => ?_⟩
  · rw [fpexcRead_dex, readDex_of_one d hA rfl]
  · rw [fpexcRead_tfv]
    cases hD : isCfgD p with
    | true => rw [readTfv_of_cfgD _ d hD, if_pos (readDex_of_one d hA rfl), if_pos rfl, known_zero]
    | false =>
      rw [readTfv_of_not_cfgD _ d hD]
      simpa [isCfgD, hraz] using hD
  · obtain ⟨ht, -⟩ := cfgName_eq_cfgB.mp hB
    rw [fpexcRead_flag, readFlag_of_not_trap _ d _ _ ht]

/-- After trapped exceptions over flags that were 0: DEX and TFV 1, and the flags of the set. -/
theorem read_recordTrappedFp {p : Params} {f f' : Fpexc} {half flush : Bool} {t : PerException Bool} (d : Nat → Bool)
    (hflags : ∀ x, f.flags.get x = .zero) (hrec : fpexcRecord p f (.trappedFp half flush t) = some f') :
    let r := fpexcRead p f' d
    r.getLsbD 29 = true ∧ r.getLsbD 26 = true ∧ ∀ x, r.getLsbD (flagPos x) = t.get x := by
  obtain ⟨ht, hf'⟩ := fpexcRecord_trappedFp hrec
  have hdex : f'.dex = .one := by rw [hf']
  have htfv : cfgName p = .cfgD → f'.tfv = .one := fun hD => by rw [hf']; exact if_pos (cfgName_eq_cfgD.mp hD)
  refine ⟨?_, ?_, fun x => ?_⟩
  · rw [fpexcRead_dex, readDex_of_one d (isCfgA_eq_false_of_trap ht) hdex]
  · rw [fpexcRead_tfv, readTfv_of_one d ht hdex htfv]
  · rw [fpexcRead_flag_valid d ht hdex htfv, hf']
    cases hx : t.get x <;> simp [hx, hflags, keep0_zero]

/-- Settles O38: the read after what each cause records. -/
theorem handlerReadsTheCause : Obligations.HandlerReadsTheCause := by
  intro p f f' cause d hr hdex hflags hrec
  refine ⟨fun hcause => ?_, ?_, ?_⟩
  · obtain ⟨hrow, -⟩ := fpexcRecord_undefinedRow p f default hcause
    obtain rfl : recordUndefinedRow p f = f' := Option.some.inj (hrow.symm.trans hrec)
    exact read_recordUndefinedRow d hr hdex
  · rintro ⟨op, rfl⟩
    exact read_recordStrideLen d hrec
  · rintro half flush t rfl
    exact read_recordTrappedFp d hflags hrec

end Sys2Proof.Machine
end

/-! SUPPORT. Attempted floating-point accesses: the effective EN decides them, and which EN they see after a VMSR. -/

section
namespace Sys2Proof.Machine

/-! ### Accesses under the effective EN (R150, R154) -/

/-- Settles O41: an access faults where the effective EN is 0, and is refused or goes on where it is 1. -/
theorem fpAccessNeedsEn : Obligations.FpAccessNeedsEn := by
  intro s reg other rest hf he
  rw [step_fpAccess hf he]
  refine ⟨fun hen => ?_, fun hen => ?_, enSeen_of_synchronised⟩
  · rw [if_neg (by simp [hen])]
  · rw [if_pos hen]
    cases other with
    | true => exact ⟨nofun, nofun⟩
    | false => exact ⟨nofun, fun _ => ⟨_, rfl⟩⟩

/-- Settles O42: what EN permits goes on with the draws of its decision taken, unless another control stops it. -/
theorem fpAccessLeavesStateAlone : Obligations.FpAccessLeavesStateAlone := by
  intro s reg rest hf hen
  refine ⟨fun he => ?_, fun he => ?_⟩
  · rw [step_fpAccess hf he, if_pos hen, if_pos rfl]
  · rw [step_fpAccess hf he, if_pos hen, if_neg (by decide)]
    exact ⟨_, rfl, rfl, rfl, rfl, rfl, rfl, rfl, rfl, rfl, fun _ => rfl⟩

/-! ### The EN seen after a write (R178) -/

/-- A VMSR whose condition held and that went on was admitted and has written. -/
theorem exec_vmsr_next {i : Instr} {s s' : State} (hi : IsVmsr i) (hp : condPassed i s = true)
    (h : exec i s = .next s') : s.params.haveFp = true ∧ s' = (s.condTaken i.set).moveToFpexc i.rt := by
  obtain ⟨⟨-, hf, -, -⟩, ⟨-, -, heffect⟩ | ⟨hfail, -⟩⟩ := exec_next_cases h
  · exact ⟨hf, heffect.trans (formEffect_of_isVmsr hi s)⟩
  · simp [hp] at hfail

/-- The EN cell after a write holds bit 30 of the word. -/
theorem fpexcWrite_en (p : Params) (f : Fpexc) (w : Word) : (fpexcWrite p f w).en = Cell.ofBool (w.getLsbD 30) := rfl

/-- Above EL0 the effective EN is the bit itself (R152). -/
theorem effectiveEn_above_el0 {p : Params} {e : Env} (h : e.el ≠ .el0) (en : Cell) (d : Bool) :
    effectiveEn p e en d = en.known d := by
  simp [effectiveEn, h]

/-- Settles O43: with no write left unsynchronised the access sees the cell, which holds bit 30 of the register. -/
theorem writeSeenByNextAccess : Obligations.WriteSeenByNextAccess := by
  intro s s' i reg hi hwf hsync hel hp h
  obtain ⟨-, -, hstale⟩ := wf_iff.mp hwf
  obtain ⟨hf, rfl⟩ := exec_vmsr_next hi hp h
  rw [step_fpAccess (by simpa using hf) rfl, enSeen_of_synchronised (by simp [staleAfterWrite, hsync, hstale hsync]),
    effectiveEn_above_el0 (by simpa using hel)]
  simp [fpexcWrite_en]

/-- A write not yet synchronised is seen, or the value before it (R178). -/
theorem enSeen_of_stale {s : State} {old : Cell} (h : s.staleEn = some old) :
    enSeen s = old ∨ enSeen s = s.fpexc.en := by
  cases hd : s.drawn 0 <;> simp [enSeen, h, hd]

/-- A context-synchronisation event forgets the EN from before the write and changes nothing else. -/
theorem step_contextSync {s : State} {rest : List Event} (hf : s.params.haveFp = true)
    (he : s.events = .contextSync :: rest) : step s = .next { s with events := rest, staleEn := none } :=
  step_event he hf

/-- Settles O44: the write leaves the former EN beside the cell until the event. -/
theorem unsynchronisedEnIsOldOrNew : Obligations.UnsynchronisedEnIsOldOrNew := by
  intro s s' i hi hsync hstale hp h
  obtain ⟨hf, rfl⟩ := exec_vmsr_next hi hp h
  have hold : ((s.condTaken i.set).moveToFpexc i.rt).staleEn = some s.fpexc.en := by
    simp [staleAfterWrite, hsync, hstale]
  have hnew : ((s.condTaken i.set).moveToFpexc i.rt).fpexc.en = Cell.ofBool ((s.readReg i.rt).getLsbD 30) := by
    rw [moveToFpexc_fpexc, fpexcWrite_en, condTaken_readReg]
  refine ⟨hnew ▸ enSeen_of_stale hold, hold, fun ev rest hstep => ?_⟩
  rw [step_contextSync (by simpa using hf) rfl] at hstep
  cases hstep
  exact ⟨(enSeen_of_synchronised rfl).trans hnew, rfl, rfl, rfl⟩

end Sys2Proof.Machine
end
